-- ==== Sys2Proof/Word.lean ====
section
/-!
DEFINITION. The bit-vector types of the engine (00_scope.md R7, R9, R11; 30_encoding.md R70).
Bit `i` of a register `R` (weight `2 ^ i`) is the spec's `R[i]` (R9).
-/

namespace Sys2Proof

/-- A 32-bit command or status word `w[31:0]` (R11, R70). -/
abbrev Word := BitVec 32

/-- A byte `b[7:0]`, `b[7]` the most significant bit (R11). -/
abbrev Byte := BitVec 8

/-- The LFSR and the NFSR, 128 bits each (R7, R21, R22). -/
abbrev Reg128 := BitVec 128

/-- ACC and SREG, 32 bits each (R7, R23, R24). -/
abbrev Reg32 := BitVec 32

end Sys2Proof
end

