-- ==== Sys2Proof/Config.lean ====
section
/-!
DEFINITION. What is fixed for the hardware (00_scope.md R7, R8) and the values the spec leaves open.
The open values are opaque constants: nothing can be proved about which value they have.
-/

namespace Sys2Proof.Config

/-- `DIFFUSION_ROUNDS` (R7). -/
abbrev diffusionRounds : Nat := 256

/-- Half of `AUTH_PREFIX_BITS` = 64 (R7): ACC takes 32 bits, SREG the next 32 (R181). -/
abbrev prefixHalf : Nat := 32

/-- `AUTH_GROUP_BITS` (R7). -/
abbrev groupBits : Nat := 16

/-- `BYTE_BITS` (R7). -/
abbrev byteBits : Nat := 8

/-- `COUNT_WIDTH` (R8, R71): a byte count is below `2 ^ 24`. -/
abbrev countWidth : Nat := 24

/-- Free value (log 1): what the LFSR holds after a hardware reset is unspecified (R37, U1). The arguments say
which draw it is. -/
opaque resetLfsr : Nat → Nat → Reg128

/-- Free value (log 1): what the NFSR holds after a hardware reset (R37, U1). -/
opaque resetNfsr : Nat → Nat → Reg128

/-- Free value (log 1): what ACC holds after a hardware reset (R37, U1). -/
opaque resetAcc : Nat → Nat → Reg32

/-- Free value (log 1): what SREG holds after a hardware reset (R37, U1). -/
opaque resetSreg : Nat → Nat → Reg32

/-- OPEN (log 11): `ROUND_CYCLES` less one; see `roundCycles`. -/
opaque extraRoundCycles : Nat

/-- `ROUND_CYCLES`, cycles per round, "at least 1", OPEN (R246, U10; log 11). -/
def roundCycles : Nat := extraRoundCycles + 1

/-- `CMD_OVERHEAD`, cycles per command beside its rounds, OPEN (R246, U10; log 11). -/
opaque cmdOverhead : Nat

end Sys2Proof.Config
end

