-- ==== Sys2Proof/Syntax.lean ====
section
/-!
DEFINITION. The eight commands, one constructor per row of spec/opcode_table.json (30_encoding.md R74).
-/

namespace Sys2Proof

/-- A command. The only operand is the byte count of KS_BYTES and AUTH_STREAMS (R71). -/
inductive Instr where
  /-- INIT (R150). -/
  | init
  /-- DIFFUSE (R153). -/
  | diffuse
  /-- IS_AUTH (R190). -/
  | isAuth
  /-- KS_BYTES n (R175). -/
  | ksBytes (count : Nat)
  /-- AUTH_STREAMS n (R180). -/
  | authStreams (count : Nat)
  /-- ACC_BYTES (R191). -/
  | accBytes
  /-- SR_BYTES (R192). -/
  | srBytes
  /-- STATUS (R193). -/
  | status
  deriving DecidableEq, Repr

end Sys2Proof
end

