-- ==== Sys2Proof/WellFormed.lean ====
section
/-!
DEFINITION. Which commands have an encoding: the count must fit the 24-bit field COUNT (30_encoding.md R71;
93_implementation_defined.md U13: a larger count "cannot be encoded").
-/

namespace Sys2Proof

/-- A byte count is 0 to 16,777,215 (R8, R71). -/
def countFits (n : Nat) : Bool := decide (n < 2 ^ Config.countWidth)

/-- The command has an encoding (R70, R71). -/
def Instr.wellFormed : Instr → Bool
  | .init => true
  | .diffuse => true
  | .isAuth => true
  | .ksBytes n => countFits n
  | .authStreams n => countFits n
  | .accBytes => true
  | .srBytes => true
  | .status => true

end Sys2Proof
end

