-- ==== Sys2Proof/Decode.lean ====
section
/-!
DEFINITION. Decoding a command word, total on all `2 ^ 32` words (30_encoding.md R78), and encoding a command
from the same format and opcode map (R70, R74).
-/

namespace Sys2Proof

/-- The causes of IllegalCommand: why a word encodes no command (R75 to R77, R212). -/
inductive IllegalCause where
  /-- `OPC` is 0x0 or 0x9 to 0xF (R75). -/
  | reservedOpcode
  /-- `RSV` is not 0 (R76). -/
  | reservedBits
  /-- `COUNT` is not 0 on a count-less opcode (R77). -/
  | countNotAllowed
  deriving DecidableEq, Repr

/-- `OPC = w[3:0]` (R70). -/
def opcField (w : Word) : BitVec 4 := w.extractLsb' 0 4

/-- `RSV = w[7:4]` (R70). -/
def rsvField (w : Word) : BitVec 4 := w.extractLsb' 4 4

/-- `count = zext(w[31:8])`, unsigned and not scaled (R70, R71). -/
def countField (w : Word) : Nat := (w.extractLsb' 8 24).toNat

/-- The opcode map (R74), given the count the word carries; `none` is a reserved opcode (R75). -/
def selectOp (opc count : Nat) : Option Instr :=
  match opc with
  | 0x1 => some .init
  | 0x2 => some .diffuse
  | 0x3 => some .isAuth
  | 0x4 => some (.ksBytes count)
  | 0x5 => some (.authStreams count)
  | 0x6 => some .accBytes
  | 0x7 => some .srBytes
  | 0x8 => some .status
  | _ => none

/-- Does the command use COUNT (R74)? -/
def Instr.usesCount : Instr → Bool
  | .ksBytes _ => true
  | .authStreams _ => true
  | .init => false
  | .diffuse => false
  | .isAuth => false
  | .accBytes => false
  | .srBytes => false
  | .status => false

/-- Decoding (R78). The three checks come in the order written there. -/
def decode (w : Word) : Except IllegalCause Instr :=
  match selectOp (opcField w).toNat (countField w) with
  | none => .error .reservedOpcode
  | some i =>
    if rsvField w ≠ 0 then .error .reservedBits
    else if i.usesCount = false ∧ countField w ≠ 0 then .error .countNotAllowed
    else .ok i

/-- The `OPC` value of a command (R74). -/
def Instr.opcode : Instr → BitVec 4
  | .init => 0x1
  | .diffuse => 0x2
  | .isAuth => 0x3
  | .ksBytes _ => 0x4
  | .authStreams _ => 0x5
  | .accBytes => 0x6
  | .srBytes => 0x7
  | .status => 0x8

/-- The value of the COUNT field of a command; 0 for a count-less one (R70, R77). -/
def Instr.count : Instr → Nat
  | .ksBytes n => n
  | .authStreams n => n
  | .init => 0
  | .diffuse => 0
  | .isAuth => 0
  | .accBytes => 0
  | .srBytes => 0
  | .status => 0

/-- The word of a well-formed command: COUNT in bits 31:8, RSV = 0000 in bits 7:4, OPC in bits 3:0 (R70). -/
def encode (i : Instr) : Word := BitVec.ofNat 24 i.count ++ 0#4 ++ i.opcode

/-- The command word whose bits are `w`, as spec/opcode_table.json numbers them, of which the table gives `nbits`;
the bits above are 0 (log 8). -/
def tableWord (nbits w : Nat) : Word := BitVec.ofNat 32 (w % 2 ^ nbits)

/-- What the decoder reads from a table word; none where it answers IllegalCommand. A command is exactly one 32-bit
word (R52, R70), so more than 32 bits are no command (log 8). -/
def decodeTableWord (nbits w : Nat) : Option Instr :=
  if nbits ≤ 32 then (decode (tableWord nbits w)).toOption else none

end Sys2Proof
end

