-- ==== Sys2Proof/Machine/State.lean ====
section
/-!
DEFINITION. Everything the spec gives the machine, as plain data (10_state.md), the response record
(43_extraction.md R170), the ports (00_scope.md R3), and the state after a hardware reset (R37, R240).
-/

namespace Sys2Proof.Machine

/-- The output mode latch `S.mode` (R27). -/
inductive Mode where
  /-- NONE: no output mode entered since INIT or reset. -/
  | none
  /-- PLAIN: entered by KS_BYTES. -/
  | plain
  /-- AUTH: entered by AUTH_STREAMS. -/
  | auth
  deriving DecidableEq, Repr

/-- The state `S` of one engine instance, with exactly the fields 10_state.md lists. -/
structure Engine where
  /-- `S.lfsr` (R21): index 0 most recently shifted in, index 127 about to be shifted out. -/
  lfsr : Reg128
  /-- `S.nfsr` (R22). -/
  nfsr : Reg128
  /-- `S.acc` (R23): `acc[i]` is the i-th bit written. -/
  acc : Reg32
  /-- `S.sreg` (R24). -/
  sreg : Reg32
  /-- `S.diffusing`, the phase flag (R25). -/
  diffusing : Bool
  /-- `S.auth`, the auth flag (R26). -/
  auth : Bool
  /-- `S.mode`, the output mode latch (R27). -/
  mode : Mode
  /-- `S.initd`: INIT has run since the last hardware reset (R28). -/
  initd : Bool
  /-- `S.diffused`: DIFFUSE has completed since the last INIT (R29). -/
  diffused : Bool
  /-- `S.pop`: ACC and SREG hold the first 64 running-phase bits (R30). -/
  pop : Bool
  /-- `S.pv`, the sticky precondition-violation flag (R31). -/
  pv : Bool
  deriving DecidableEq, Repr

/-- The causes of PreconditionViolation (R211). -/
inductive PreconditionCause where
  /-- NOT_INIT: `S.initd = 0`. -/
  | notInit
  /-- NOT_DIFFUSED: `S.initd = 1` and `S.diffused = 0`. -/
  | notDiffused
  /-- ALREADY_DIFFUSED: DIFFUSE with `S.diffused = 1`. -/
  | alreadyDiffused
  /-- NOT_AUTH: `S.auth = 0`. -/
  | notAuth
  /-- MODE_CONFLICT: `S.mode` is the other output mode. -/
  | modeConflict
  /-- NOT_POPULATED: `S.pop = 0`. -/
  | notPopulated
  deriving DecidableEq, Repr

/-- The cause field of a response (R72): none with an OK response. -/
inductive Cause where
  /-- Code 0, with `st = OK`. -/
  | none
  /-- A PreconditionViolation cause (R211). -/
  | precondition (c : PreconditionCause)
  /-- An IllegalCommand cause (R212). -/
  | illegal (c : IllegalCause)
  deriving DecidableEq, Repr

/-- The result field `st` of a response (R72). -/
inductive RespStatus where
  /-- OK. -/
  | ok
  /-- PRECONDITION_VIOLATION. -/
  | preconditionViolation
  /-- ILLEGAL_COMMAND. -/
  | illegalCommand
  deriving DecidableEq, Repr

/-- One response `Resp` (R170). The first byte produced is the head of a byte list (R11, R53). -/
structure Resp where
  st : RespStatus
  cause : Cause
  word : Word
  out0 : List Byte
  out1 : List Byte
  deriving DecidableEq, Repr

/-- What the host can do to the block: present a command word on the command port (R3, R52), or reset the hardware
(R240; log 5). -/
inductive HostInput where
  | word (w : Word)
  | reset
  deriving DecidableEq, Repr

/-- The model's own: which free draw the next hardware reset takes the unspecified registers from (log 2). -/
structure DrawCursor where
  stream : Nat
  next : Nat
  deriving DecidableEq, Repr

/-- One instance of the block: the engine, its command port, its response port. -/
structure State where
  /-- The engine's own state `S`. -/
  engine : Engine
  /-- What the host has presented and the engine has not yet accepted, in order (R33, R59; log 4). -/
  inputs : List HostInput
  /-- The responses given, oldest first, one for each command (R170; log 6). -/
  responses : List Resp
  /-- Where free draws come from (the model's own field; log 2). -/
  draw : DrawCursor
  deriving DecidableEq, Repr

/-- There is no fault: every outcome of a command, error or success, is its response and the machine goes on
(R213, R216; log 17). Nobody raises one. -/
inductive Fault where
  deriving DecidableEq, Repr

/-- Why a step has no meaning. No meaning of this model raises one (log 17). -/
inductive Refusal where
  /-- Raised by an arm of `exec` whose instruction has no meaning yet; safe. No arm is left that raises it. -/
  | notModelled (mnemonic : String)
  deriving DecidableEq, Repr

/-- What a step answers. -/
abbrev StepOutcome := Host.Outcome State Fault Refusal

/-- The engine right after a hardware reset (R37, R240): the flags as the table says, the registers unspecified, each
a free draw (log 1). -/
def Engine.afterReset (d : DrawCursor) : Engine where
  lfsr := Config.resetLfsr d.stream d.next
  nfsr := Config.resetNfsr d.stream d.next
  acc := Config.resetAcc d.stream d.next
  sreg := Config.resetSreg d.stream d.next
  diffusing := false
  auth := false
  mode := .none
  initd := false
  diffused := false
  pop := false
  pv := false

/-- An instance right after a hardware reset that takes draw 0 of the given stream: nothing presented, nothing
answered. -/
def State.afterReset (stream : Nat) : State where
  engine := Engine.afterReset { stream := stream, next := 0 }
  inputs := []
  responses := []
  draw := { stream := stream, next := 1 }

/-- The machine right after reset (R37, R240). -/
def State.reset : State := State.afterReset 0

end Sys2Proof.Machine
end

