-- ==== Sys2Proof/Machine/Datapath.lean ====
section
/-!
DEFINITION. The pure combinational functions of the engine (40_functions.md R99 to R109). Every tap is the position the
spec's pseudocode names; `^^` is XOR and `&&` is AND (R9).
-/

namespace Sys2Proof.Machine

/-- The linear feedback (R100; the polynomial of R101). -/
def linearFeedback (L : Reg128) : Bool :=
  L[31] ^^ L[46] ^^ L[57] ^^ L[89] ^^ L[120] ^^ L[127]

/-- The nonlinear feedback (R102): 5 single-bit terms and 10 products (R103; 90_conflicts.md C1, C2). -/
def nonlinearFeedback (N : Reg128) : Bool :=
  N[31] ^^ N[36] ^^ N[71] ^^ N[101] ^^ N[127]
    ^^ (N[43] && N[59]) ^^ (N[60] && N[124]) ^^ (N[62] && N[66]) ^^ (N[68] && N[100])
    ^^ (N[79] && N[87]) ^^ (N[109] && N[110]) ^^ (N[114] && N[116])
    ^^ (N[45] && N[49] && N[57]) ^^ (N[102] && N[103] && N[105])
    ^^ (N[32] && N[34] && N[35] && N[39])

/-- The shift primitive (R104, R105): the bit that leaves, and the register moved one toward the high index with `fb`
at index 0. -/
def shift (R : Reg128) (fb : Bool) : Bool × Reg128 :=
  (R[127], (R <<< 1) ||| (BitVec.ofBool fb).setWidth 128)

/-- The Boolean formula `h` of the nonlinear filter over its nine inputs (R107). -/
def filterFormula (x0 x1 x2 x3 x4 x5 x6 x7 x8 : Bool) : Bool :=
  (x0 && x1) ^^ (x2 && x3) ^^ (x4 && x5) ^^ (x6 && x7) ^^ (x0 && x4 && x8)

/-- The nonlinear filter (R107) through the nine inputs of R106. -/
def filter (L N : Reg128) : Bool :=
  filterFormula N[115] L[119] L[114] L[107] N[32] L[85] L[67] L[48] L[33]

/-- The seven NFSR output terms (R108). -/
def nfsrTerm (N : Reg128) : Bool :=
  N[125] ^^ N[112] ^^ N[91] ^^ N[82] ^^ N[63] ^^ N[54] ^^ N[38]

/-- The round output `y` (R109). -/
def preOutput (L N : Reg128) : Bool :=
  filter L N ^^ L[34] ^^ nfsrTerm N

end Sys2Proof.Machine
end

