-- ==== Sys2Proof/Machine/Flags.lean ====
section
/-!
DEFINITION. Flags, codes and preconditions: the status word (10_state.md R35), the response's codes (30_encoding.md R72,
60_exceptions.md R211, R212), and what each command checks, in the order it checks (R215).
-/

namespace Sys2Proof.Machine

/-- `S.mode` as the status word's MODE field (R35): 0 = NONE, 1 = PLAIN, 2 = AUTH. -/
def Mode.code : Mode → BitVec 2
  | .none => 0
  | .plain => 1
  | .auth => 2

/-- `status(S)` (R35): PV : POP : MODE : AUTH : DIFFUSING : DIFFUSED : INITD, zero-extended to 32 bits. -/
def statusWord (e : Engine) : Word :=
  (BitVec.ofBool e.pv ++ BitVec.ofBool e.pop ++ e.mode.code ++ BitVec.ofBool e.auth
    ++ BitVec.ofBool e.diffusing ++ BitVec.ofBool e.diffused ++ BitVec.ofBool e.initd).setWidth 32

/-- The 2-bit code of `st` (R72). -/
def RespStatus.code : RespStatus → BitVec 2
  | .ok => 0
  | .preconditionViolation => 1
  | .illegalCommand => 2

/-- The code of a PreconditionViolation cause (R211). -/
def PreconditionCause.code : PreconditionCause → BitVec 4
  | .notInit => 0x1
  | .notDiffused => 0x2
  | .alreadyDiffused => 0x3
  | .notAuth => 0x4
  | .modeConflict => 0x5
  | .notPopulated => 0x6

/-- The code of an IllegalCommand cause (R212). -/
def illegalCode : IllegalCause → BitVec 4
  | .reservedOpcode => 0x8
  | .reservedBits => 0x9
  | .countNotAllowed => 0xA

/-- The 4-bit code of the `cause` field (R72): 0 with an OK response. -/
def Cause.code : Cause → BitVec 4
  | .none => 0
  | .precondition c => c.code
  | .illegal c => illegalCode c

/-- The result that goes with a cause (R72, R211, R212). -/
def Cause.st : Cause → RespStatus
  | .none => .ok
  | .precondition _ => .preconditionViolation
  | .illegal _ => .illegalCommand

/-- A list of precondition checks, in order: what makes the check fail, and the cause it then raises. -/
abbrev Checks := List (Bool × PreconditionCause)

/-- One command reports one cause, the first that applies (R215). -/
def firstFailure : Checks → Option PreconditionCause
  | [] => none
  | (fails, c) :: rest => if fails then some c else firstFailure rest

/-- INIT has no precondition (R150). -/
def initChecks (_ : Engine) : Checks := []

/-- What DIFFUSE checks (R153). -/
def diffuseChecks (e : Engine) : Checks :=
  [(!e.initd, .notInit), (e.diffused, .alreadyDiffused)]

/-- What IS_AUTH checks (R190). -/
def isAuthChecks (e : Engine) : Checks := [(!e.initd, .notInit)]

/-- What KS_BYTES checks (R175). -/
def ksBytesChecks (e : Engine) : Checks :=
  [(!e.initd, .notInit), (!e.diffused, .notDiffused), (e.mode == .auth, .modeConflict)]

/-- What AUTH_STREAMS checks (R180). -/
def authStreamsChecks (e : Engine) : Checks :=
  [(!e.initd, .notInit), (!e.diffused, .notDiffused), (!e.auth, .notAuth), (e.mode == .plain, .modeConflict)]

/-- What ACC_BYTES checks (R191). -/
def accBytesChecks (e : Engine) : Checks :=
  [(!e.initd, .notInit), (!e.diffused, .notDiffused), (!e.auth, .notAuth), (!e.pop, .notPopulated)]

/-- What SR_BYTES checks: "the same four checks in the same order" as ACC_BYTES (R192). -/
def srBytesChecks (e : Engine) : Checks :=
  [(!e.initd, .notInit), (!e.diffused, .notDiffused), (!e.auth, .notAuth), (!e.pop, .notPopulated)]

/-- STATUS has no precondition (R193). -/
def statusChecks (_ : Engine) : Checks := []

end Sys2Proof.Machine
end

