-- ==== Sys2Proof/Machine/Operands.lean ====
section
/-!
DEFINITION. How bits become bytes and registers (20_memory.md R53 to R56; 43_extraction.md R176, R181, R185). The one operand a
command has, its count, is assembled by `countField` in Decode.lean (R71).
-/

namespace Sys2Proof.Machine

/-- `pack8(b0, …, b7)`: bit 7 is `b0`, bit 0 is `b7` (R54). -/
def pack8 (b0 b1 b2 b3 b4 b5 b6 b7 : Bool) : Byte :=
  BitVec.ofBool b0 ++ BitVec.ofBool b1 ++ BitVec.ofBool b2 ++ BitVec.ofBool b3
    ++ BitVec.ofBool b4 ++ BitVec.ofBool b5 ++ BitVec.ofBool b6 ++ BitVec.ofBool b7

/-- The byte packed from eight bits `b start, b (start + stride), …` of a sequence, earliest first (R54). A stride of 2
picks one parity of a group (R185). -/
def packBits (b : Nat → Bool) (start stride : Nat) : Byte :=
  pack8 (b start) (b (start + stride)) (b (start + 2 * stride)) (b (start + 3 * stride))
    (b (start + 4 * stride)) (b (start + 5 * stride)) (b (start + 6 * stride)) (b (start + 7 * stride))

/-- Bit `j` of a list of bits in generation order. -/
def bitOf (ys : List Bool) (j : Nat) : Bool := ys.getD j false

/-- A 32-bit register read out as 4 bytes, byte k from `R[8k] .. R[8k+7]` (R55). -/
def packRegister (R : Reg32) : List Byte :=
  [packBits R.getLsbD 0 1, packBits R.getLsbD 8 1, packBits R.getLsbD 16 1, packBits R.getLsbD 24 1]

/-- A 32-bit register loaded from bits in generation order: `R[i] <- b_i` (R181). -/
def loadBits : List Bool → Reg32
  | [] => 0
  | b :: bs => (loadBits bs <<< 1) ||| (BitVec.ofBool b).setWidth 32

end Sys2Proof.Machine
end

