-- ==== Sys2Proof/Machine/Ops.lean ====
section
/-!
DEFINITION. The operations the meanings share: the round (41_round.md R130 to R136), packing a run of rounds into bytes,
answering a command (43_extraction.md R170, R171), raising an error (60_exceptions.md R213, R214), the hardware reset
(70_reset_and_hazards.md R240) and taking the host's next input.
-/

namespace Sys2Proof.Machine

/-- One round (R130): its output `y` and the engine with both registers clocked once. The phase flag selects diffusion
clocking (R131) or running clocking (R132). Every value read is a pre-round value (R133). -/
def Engine.round (e : Engine) : Bool × Engine :=
  let lfsrFb := linearFeedback e.lfsr
  let nfsrFb := nonlinearFeedback e.nfsr
  let y := preOutput e.lfsr e.nfsr
  if e.diffusing then
    let l := shift e.lfsr (lfsrFb ^^ y)
    let n := shift e.nfsr (nfsrFb ^^ l.1 ^^ y)
    (y, { e with lfsr := l.2, nfsr := n.2 })
  else
    let l := shift e.lfsr lfsrFb
    let n := shift e.nfsr (nfsrFb ^^ l.1)
    (y, { e with lfsr := l.2, nfsr := n.2 })

/-- `rounds(S, k)`: the outputs of k rounds in sequence, first output first, and the engine after them (R136). -/
def Engine.rounds (e : Engine) : Nat → List Bool × Engine
  | 0 => ([], e)
  | k + 1 =>
    let first := e.round
    let rest := first.2.rounds k
    (first.1 :: rest.1, rest.2)

/-- The engine after k rounds. -/
def Engine.clocked (e : Engine) (k : Nat) : Engine := (e.rounds k).2

/-- The output `y_j` of round j, counted from the given state (R53, R136). -/
def Engine.outputBit (e : Engine) (j : Nat) : Bool := (e.clocked j).round.1

/-- n bytes of plain keystream, 8 rounds each (the loop of R175, R176). -/
def Engine.plainBytes (e : Engine) : Nat → List Byte × Engine
  | 0 => ([], e)
  | n + 1 =>
    let g := e.rounds Config.byteBits
    let rest := g.2.plainBytes n
    (packBits (bitOf g.1) 0 1 :: rest.1, rest.2)

/-- What n groups of 16 rounds give in authenticated mode. -/
structure Streams where
  keystream : List Byte
  macstream : List Byte
  engine : Engine

/-- n groups of 16 rounds: the even bits of a group make its keystream byte, the odd bits its macstream byte (the loop of
R180, R185). -/
def Engine.authBytes (e : Engine) : Nat → Streams
  | 0 => { keystream := [], macstream := [], engine := e }
  | n + 1 =>
    let g := e.rounds Config.groupBits
    let rest := g.2.authBytes n
    { keystream := packBits (bitOf g.1) 0 2 :: rest.keystream
      macstream := packBits (bitOf g.1) 1 2 :: rest.macstream
      engine := rest.engine }

/-- Population (R181): 32 bits into ACC, the next 32 into SREG. -/
def Engine.populate (e : Engine) : Engine :=
  let a := e.rounds Config.prefixHalf
  let r := a.2.rounds Config.prefixHalf
  { r.2 with acc := loadBits a.1, sreg := loadBits r.1, pop := true }

/-- What an OK response carries (R170). -/
structure Reply where
  word : Word
  out0 : List Byte
  out1 : List Byte

/-- `OK(word = 0, out0 = [], out1 = [])`. -/
def Reply.empty : Reply := { word := 0, out0 := [], out1 := [] }

/-- `OK(word, out0, out1)` (R170). -/
def Resp.ok (r : Reply) : Resp :=
  { st := .ok, cause := .none, word := r.word, out0 := r.out0, out1 := r.out1 }

/-- An error response: no word, no byte (R170, R213). -/
def Resp.error (c : Cause) : Resp :=
  { st := c.st, cause := c, word := 0, out0 := [], out1 := [] }

/-- A command ends: the engine is `e` and the response `r` is given (R57, R170). -/
def State.answer (s : State) (e : Engine) (r : Resp) : State :=
  { s with engine := e, responses := s.responses ++ [r] }

/-- `raise PreconditionViolation(c)` and `raise IllegalCommand(c)`: nothing is written but the sticky flag, and the error
response is given (R13, R213, R214). The engine has no trap entry and no return from one (R217, R218). -/
def State.raise (s : State) (c : Cause) : State :=
  s.answer { s.engine with pv := true } (Resp.error c)

/-- One command rule (R171): the checks come first; if one fails the command raises it, else the effect happens and its OK
response is given. -/
def State.runCommand (s : State) (checks : Checks) (effect : Engine → Engine × Reply) : StepOutcome :=
  match firstFailure checks with
  | some c => .next (s.raise (.precondition c))
  | none =>
    let r := effect s.engine
    .next (s.answer r.1 (Resp.ok r.2))

/-- A hardware reset (R240, R37): the engine is as after reset, its registers a fresh free draw, and no response is given.
What the host has presented and what it has been answered stay (log 5). -/
def State.hardwareReset (s : State) : State :=
  { s with
    engine := Engine.afterReset s.draw
    draw := { s.draw with next := s.draw.next + 1 } }

/-- The host's next input and the state without it; none when the host has presented nothing (R33, R59). -/
def State.takeInput (s : State) : Option (HostInput × State) :=
  match s.inputs with
  | [] => none
  | x :: rest => some (x, { s with inputs := rest })

/-- The host presents a command word that the engine accepts next. -/
def State.present (s : State) (w : Word) : State :=
  { s with inputs := .word w :: s.inputs }

end Sys2Proof.Machine
end

