-- ==== Sys2Proof/Machine/Extract.lean ====
section
/-!
DEFINITION. The meanings of KS_BYTES and AUTH_STREAMS (43_extraction.md sections 2 and 3).
-/

namespace Sys2Proof.Machine

/-- What KS_BYTES n does (R175, R176): latch PLAIN, then n bytes of 8 rounds each. -/
def ksBytesEffect (n : Nat) (e : Engine) : Engine × Reply :=
  let r := { e with mode := .plain }.plainBytes n
  (r.2, { word := 0, out0 := r.1, out1 := [] })

/-- KS_BYTES n (R175). -/
def execKsBytes (n : Nat) (s : State) : StepOutcome := s.runCommand (ksBytesChecks s.engine) (ksBytesEffect n)

/-- The first half of AUTH_STREAMS (R180): latch AUTH, and on the first call populate ACC and SREG (R181). -/
def enterAuth (e : Engine) : Engine :=
  let latched := { e with mode := .auth }
  if latched.pop then latched else latched.populate

/-- What AUTH_STREAMS n does (R180): n keystream bytes and n macstream bytes (R185, R186). -/
def authStreamsEffect (n : Nat) (e : Engine) : Engine × Reply :=
  let r := (enterAuth e).authBytes n
  (r.engine, { word := 0, out0 := r.keystream, out1 := r.macstream })

/-- AUTH_STREAMS n (R180). -/
def execAuthStreams (n : Nat) (s : State) : StepOutcome :=
  s.runCommand (authStreamsChecks s.engine) (authStreamsEffect n)

end Sys2Proof.Machine
end

