-- ==== Sys2Proof/Machine/InitDiffuse.lean ====
section
/-!
DEFINITION. The meanings of INIT and DIFFUSE (42_init_diffuse.md).
-/

namespace Sys2Proof.Machine

/-- `INIT_LFSR` (R151): index 0 is 0, indices 1 to 31 are 1, indices 32 to 126 are 0, index 127 is 1. -/
def initLfsr : Reg128 := 0x800000000000000000000000FFFFFFFE

/-- What INIT does (R150). The auth flag is computed from the pattern as loaded (R152); `pv` is unchanged. -/
def initEffect (e : Engine) : Engine × Reply :=
  ({ e with
      lfsr := initLfsr
      nfsr := 0
      acc := 0
      sreg := 0
      auth := initLfsr[127]
      diffusing := true
      initd := true
      diffused := false
      mode := .none
      pop := false },
    Reply.empty)

/-- INIT (R150). -/
def execInit (s : State) : StepOutcome := s.runCommand (initChecks s.engine) initEffect

/-- What DIFFUSE does (R153): 256 rounds, whose outputs are discarded (R155), then the phase flag goes to running (R154). -/
def diffuseEffect (e : Engine) : Engine × Reply :=
  ({ e.clocked Config.diffusionRounds with diffusing := false, diffused := true }, Reply.empty)

/-- DIFFUSE (R153). -/
def execDiffuse (s : State) : StepOutcome := s.runCommand (diffuseChecks s.engine) diffuseEffect

end Sys2Proof.Machine
end

