-- ==== Sys2Proof/Machine/Query.lean ====
section
/-!
DEFINITION. The meanings of IS_AUTH, ACC_BYTES, SR_BYTES and STATUS (43_extraction.md section 4). They write no field.
-/

namespace Sys2Proof.Machine

/-- IS_AUTH answers `zext_32(S.auth)` (R190). -/
def isAuthEffect (e : Engine) : Engine × Reply :=
  (e, { word := (BitVec.ofBool e.auth).setWidth 32, out0 := [], out1 := [] })

/-- IS_AUTH (R190). -/
def execIsAuth (s : State) : StepOutcome := s.runCommand (isAuthChecks s.engine) isAuthEffect

/-- ACC_BYTES answers ACC as 4 bytes (R191, R55). -/
def accBytesEffect (e : Engine) : Engine × Reply :=
  (e, { word := 0, out0 := packRegister e.acc, out1 := [] })

/-- ACC_BYTES (R191). -/
def execAccBytes (s : State) : StepOutcome := s.runCommand (accBytesChecks s.engine) accBytesEffect

/-- SR_BYTES answers SREG as 4 bytes (R192, R55). -/
def srBytesEffect (e : Engine) : Engine × Reply :=
  (e, { word := 0, out0 := packRegister e.sreg, out1 := [] })

/-- SR_BYTES (R192). -/
def execSrBytes (s : State) : StepOutcome := s.runCommand (srBytesChecks s.engine) srBytesEffect

/-- STATUS answers the status word (R193, R35). -/
def statusEffect (e : Engine) : Engine × Reply :=
  (e, { word := statusWord e, out0 := [], out1 := [] })

/-- STATUS (R193). -/
def execStatus (s : State) : StepOutcome := s.runCommand (statusChecks s.engine) statusEffect

end Sys2Proof.Machine
end

