-- ==== Sys2Proof/Machine/Dispatch.lean ====
section
/-!
DEFINITION. Which meaning each command has (43_extraction.md R171).
-/

namespace Sys2Proof.Machine

def exec (i : Instr) (s : State) : Host.Outcome State Fault Refusal :=
  match i with
  | .init => Sys2Proof.Machine.execInit s
  | .diffuse => Sys2Proof.Machine.execDiffuse s
  | .isAuth => Sys2Proof.Machine.execIsAuth s
  | .ksBytes count => Sys2Proof.Machine.execKsBytes count s
  | .authStreams count => Sys2Proof.Machine.execAuthStreams count s
  | .accBytes => Sys2Proof.Machine.execAccBytes s
  | .srBytes => Sys2Proof.Machine.execSrBytes s
  | .status => Sys2Proof.Machine.execStatus s

end Sys2Proof.Machine
end

