-- ==== Sys2Proof/Machine/Step.lean ====
section
/-!
DEFINITION. One step: the engine takes the host's next input and runs it to completion (43_extraction.md R171; 20_memory.md R57).
-/

namespace Sys2Proof.Machine

/-- One step. With nothing presented the engine holds its state (R224; log 4). A hardware reset input resets the block
(R240). A command word is decoded and executed, or answered with IllegalCommand (R171). -/
def step (s : State) : Host.Outcome State Fault Refusal :=
  match s.takeInput with
  | none => .next s
  | some (.reset, t) => .next t.hardwareReset
  | some (.word w, t) =>
    match decode w with
    | .error c => .next (t.raise (.illegal c))
    | .ok i => exec i t

/-- The state in which the host presents the table word next (log 7, log 8). -/
def State.withFetchWord (s : State) (nbits w : Nat) : State := s.present (tableWord nbits w)

end Sys2Proof.Machine
end

