-- ==== Sys2Proof/Machine/Assembler.lean ====
section
/-!
DEFINITION. The assembler's syntax (30_encoding.md R79): one command a line, a lower-case mnemonic, then for KS_BYTES and
AUTH_STREAMS one count, and the pseudo-instruction `create`. What R79 does not say of blanks and empty lines is log 12.
-/

namespace Sys2Proof.Machine

/-- What a mnemonic of R79 stands for: commands without a count, or one command with a count. -/
inductive AsmForm where
  | plain (is : List Instr)
  | counted (mk : Nat → Instr)

/-- The mnemonics of R79; `create` is `init` then `diffuse` (R156). -/
def asmMnemonics : List (String × AsmForm) :=
  [("init", .plain [.init]), ("diffuse", .plain [.diffuse]), ("is_auth", .plain [.isAuth]),
   ("ks_bytes", .counted .ksBytes), ("auth_streams", .counted .authStreams),
   ("acc_bytes", .plain [.accBytes]), ("sr_bytes", .plain [.srBytes]), ("status", .plain [.status]),
   ("create", .plain [.init, .diffuse])]

/-- The value of a digit in a base, decimal or hexadecimal. -/
def digitValue (base : Nat) (c : Char) : Option Nat :=
  let d := if '0' ≤ c ∧ c ≤ '9' then c.toNat - '0'.toNat
    else if 'a' ≤ c ∧ c ≤ 'f' then c.toNat - 'a'.toNat + 10
    else if 'A' ≤ c ∧ c ≤ 'F' then c.toNat - 'A'.toNat + 10
    else base
  if d < base then some d else none

/-- Reads the digits of a number, most significant first, after the part already read. -/
def readDigits (base : Nat) : Nat → List Char → Option Nat
  | v, [] => some v
  | v, c :: cs =>
    match digitValue base c with
    | some d => readDigits base (v * base + d) cs
    | none => none

/-- A count "written in decimal or as `0x` hex" (R79). -/
def readCount : List Char → Option Nat
  | [] => none
  | '0' :: 'x' :: c :: cs => readDigits 16 0 (c :: cs)
  | c :: cs => readDigits 10 0 (c :: cs)

/-- Is the character a blank between tokens (log 12)? -/
def isBlank (c : Char) : Bool := c == ' ' || c == '\t'

/-- The tokens of a line, the token being read so far given in reverse order. -/
def tokens : List Char → List Char → List (List Char)
  | cur, [] => if cur.isEmpty then [] else [cur.reverse]
  | cur, c :: cs =>
    if isBlank c then (if cur.isEmpty then tokens [] cs else cur.reverse :: tokens [] cs)
    else tokens (c :: cur) cs

/-- One command as R79's words: rejected where the count is outside the range. -/
def assembleInstr (i : Instr) : Option Word := if i.wellFormed then some (encode i) else none

/-- The words of one line; none where the assembler rejects it (R79). `;` starts a comment. -/
def assembleLine (line : List Char) : Option (List Word) :=
  match tokens [] (line.takeWhile (· != ';')) with
  | [] => some []
  | m :: args =>
    match asmMnemonics.find? (fun p => p.1.toList == m), args with
    | some (_, .plain is), [] => is.mapM assembleInstr
    | some (_, .counted mk), [a] => (readCount a).bind fun n => (assembleInstr (mk n)).map fun w => [w]
    | _, _ => none

/-- The words of a program, its lines in order (R79). -/
def assemble (lines : List (List Char)) : Option (List Word) :=
  (lines.mapM assembleLine).map List.flatten

end Sys2Proof.Machine
end

