-- ==== Sys2Proof/Machine/Platform.lean ====
section
/-!
DEFINITION. A platform of any number of instances that share nothing (00_scope.md R8, 10_state.md R39, 20_memory.md R60,
60_exceptions.md R222; log 10).
-/

namespace Sys2Proof.Machine

/-- The instances, each with its own complete state and its own two ports (R222). -/
structure Platform where
  instances : List State
  deriving DecidableEq, Repr

/-- `NUM_ENGINES = n` instances after reset (R8, R222). Each draws its unspecified registers from a stream of its own. -/
def Platform.reset (n : Nat) : Platform := { instances := (List.range n).map State.afterReset }

/-- Instance k takes one step; where there is no instance k nothing happens. -/
def Platform.stepInstance (p : Platform) (k : Nat) : Host.Outcome Platform Fault Refusal :=
  match p.instances[k]? with
  | none => .next p
  | some s =>
    match step s with
    | .next t => .next { instances := p.instances.set k t }
    | .fault f => .fault f
    | .refused r => .refused r

/-- An interleaving of the instances' steps: the listed instances step one after another. -/
def Platform.run (p : Platform) : List Nat → Host.Outcome Platform Fault Refusal
  | [] => .next p
  | k :: ks =>
    match p.stepInstance k with
    | .next q => q.run ks
    | .fault f => .fault f
    | .refused r => .refused r

end Sys2Proof.Machine
end

