-- ==== Sys2Proof/Machine/Commands.lean ====
section
/-!
DEFINITION. All commands seen at once: what each checks and what each does when no check fails. `exec_eq_runCommand`
(Laws/Command.lean) says that the meanings are exactly this.
-/

namespace Sys2Proof.Machine

/-- What each command checks, in order (60_exceptions.md R211, R215). -/
def checksOf (e : Engine) : Instr → Checks
  | .init => initChecks e
  | .diffuse => diffuseChecks e
  | .isAuth => isAuthChecks e
  | .ksBytes _ => ksBytesChecks e
  | .authStreams _ => authStreamsChecks e
  | .accBytes => accBytesChecks e
  | .srBytes => srBytesChecks e
  | .status => statusChecks e

/-- What each command does when no check fails (43_extraction.md R171). -/
def effectOf : Instr → Engine → Engine × Reply
  | .init => initEffect
  | .diffuse => diffuseEffect
  | .isAuth => isAuthEffect
  | .ksBytes n => ksBytesEffect n
  | .authStreams n => authStreamsEffect n
  | .accBytes => accBytesEffect
  | .srBytes => srBytesEffect
  | .status => statusEffect

end Sys2Proof.Machine
end

