-- ==== Sys2Proof/Machine/Timing.lean ====
section
/-!
DEFINITION. Rounds per command (70_reset_and_hazards.md R245), the only quantitative claim of the spec about time, and the
latency in terms of the two OPEN parameters (R246; log 11). Nothing in the step depends on either.
-/

namespace Sys2Proof.Machine

/-- Rounds a command consumes when no check fails (R245). -/
def roundsOnSuccess (e : Engine) : Instr → Nat
  | .diffuse => 256
  | .ksBytes n => 8 * n
  | .authStreams n => if e.pop then 16 * n else 64 + 16 * n
  | .init => 0
  | .isAuth => 0
  | .accBytes => 0
  | .srBytes => 0
  | .status => 0

/-- Rounds a command consumes (R245): none when it is answered with an error. -/
def roundsUsed (e : Engine) (i : Instr) : Nat :=
  match firstFailure (checksOf e i) with
  | some _ => 0
  | none => roundsOnSuccess e i

/-- Cycles a command takes, in terms of `ROUND_CYCLES` and `CMD_OVERHEAD` (R246). -/
def latency (e : Engine) (i : Instr) : Nat :=
  roundsUsed e i * Config.roundCycles + Config.cmdOverhead

end Sys2Proof.Machine
end

