-- ==== Sys2Proof/Safety.lean ====
section
/-!
DEFINITION. The state invariants (10_state.md R32), what a safe run is (60_exceptions.md R214), and the words the statements use:
the state after a response, spelled out field by field and not through the model's own operations.
-/

namespace Sys2Proof.Machine

/-- The invariants every reachable engine state satisfies, in the order R32 lists them. -/
abbrev Engine.Inv (e : Engine) : Prop :=
  (e.initd = false → e.diffusing = false ∧ e.diffused = false ∧ e.mode = .none ∧ e.pop = false) ∧
  (e.initd = true → e.diffusing = !e.diffused) ∧
  (e.mode ≠ .none → e.diffused = true) ∧
  (e.pop = true ↔ e.mode = .auth) ∧
  (e.mode = .auth → e.auth = true) ∧
  (e.pop = false → e.initd = true → e.acc = 0 ∧ e.sreg = 0)

/-- "`pv = 0` at the end" is "the premise that no command of a run was in error" (R214): a state a clean run ends in. -/
abbrev State.Clean (s : State) : Prop := s.engine.pv = false

/-- Two engines that differ at most in the four data registers (R20). -/
abbrev Engine.SameFlags (e f : Engine) : Prop :=
  e.diffusing = f.diffusing ∧ e.auth = f.auth ∧ e.mode = f.mode ∧ e.initd = f.initd ∧
  e.diffused = f.diffused ∧ e.pop = f.pop ∧ e.pv = f.pv

/-- Two states equal but for the four data registers while INIT has not run, and equal once it has (R37). -/
abbrev State.AlikeUntilInit (s t : State) : Prop :=
  s.inputs = t.inputs ∧ s.responses = t.responses ∧ s.draw = t.draw ∧ s.engine.SameFlags t.engine ∧
  (s.engine.initd = true → s.engine = t.engine)

/-- A numeral: the digits, each as its character (0 to 9, a to f), most significant first (30_encoding.md R79). -/
def numeral (ds : List Nat) : List Char := ds.map Nat.digitChar

/-- The number a list of digits stands for in a base, most significant first. -/
def numeralValue (base : Nat) (ds : List Nat) : Nat := ds.foldl (fun v d => base * v + d) 0

/-- A character that can stand in a token of a source line: no blank, and not the `;` that starts a comment (R79). -/
abbrev IsTokenChar (c : Char) : Prop := c ≠ ' ' ∧ c ≠ '\t' ∧ c ≠ ';'

/-- The state after an OK response (R170). -/
abbrev State.okWith (s : State) (e : Engine) (word : Word) (out0 out1 : List Byte) : State :=
  { s with
    engine := e
    responses := s.responses ++ [{ st := .ok, cause := .none, word := word, out0 := out0, out1 := out1 }] }

/-- The state after a PRECONDITION_VIOLATION response (R211, R213). -/
abbrev State.violatedWith (s : State) (c : PreconditionCause) : State :=
  { s with
    engine := { s.engine with pv := true }
    responses := s.responses ++
      [{ st := .preconditionViolation, cause := .precondition c, word := 0, out0 := [], out1 := [] }] }

/-- The state after an ILLEGAL_COMMAND response (R212, R213). -/
abbrev State.illegalWith (s : State) (c : IllegalCause) : State :=
  { s with
    engine := { s.engine with pv := true }
    responses := s.responses ++
      [{ st := .illegalCommand, cause := .illegal c, word := 0, out0 := [], out1 := [] }] }

/-- The engine after `create`, as the examples of R153 and program P1 give it (42_init_diffuse.md, 95_test_vectors.md V-D1). -/
def createdEngine : Engine where
  lfsr := 0xA3F545F997EBC74883A7E1384513C974
  nfsr := 0x9D2C0C5281D33CB9444720688B0A3A7A
  acc := 0
  sreg := 0
  diffusing := false
  auth := true
  mode := .none
  initd := true
  diffused := true
  pop := false
  pv := false

/-- Bit m, in generation order, of a packed byte sequence (R53, R54). -/
def streamBit (bytes : List Byte) (m : Nat) : Bool := (bytes.getD (m / 8) 0).getLsbD (7 - m % 8)

end Sys2Proof.Machine
end

