-- ==== Sys2Proof/Certificates/Slice0/Obligations.lean ====
section
/-!
DEFINITION. The statements for the provers. Each docstring names the rules of spec/ the statement formalises.
-/

open Sys2Proof Sys2Proof.Machine

/-! ### Encoding -/

/-- R78: the decoder on every word, by the numbers of its fields OPC, RSV and COUNT (R70). -/
def Obligations.DecodeFollowsTheOpcodeMap : Prop :=
  ∀ w : Word,
    ((w.toNat % 16 = 0 ∨ 9 ≤ w.toNat % 16) → decode w = .error .reservedOpcode) ∧
    (1 ≤ w.toNat % 16 → w.toNat % 16 ≤ 8 → w.toNat / 16 % 16 ≠ 0 → decode w = .error .reservedBits) ∧
    (1 ≤ w.toNat % 16 → w.toNat % 16 ≤ 8 → w.toNat / 16 % 16 = 0 → w.toNat % 16 ≠ 4 → w.toNat % 16 ≠ 5 →
      w.toNat / 256 ≠ 0 → decode w = .error .countNotAllowed) ∧
    (decode w = .ok .init ↔ w.toNat = 1) ∧
    (decode w = .ok .diffuse ↔ w.toNat = 2) ∧
    (decode w = .ok .isAuth ↔ w.toNat = 3) ∧
    (∀ n, decode w = .ok (.ksBytes n) ↔ n < 2 ^ 24 ∧ w.toNat = n * 256 + 4) ∧
    (∀ n, decode w = .ok (.authStreams n) ↔ n < 2 ^ 24 ∧ w.toNat = n * 256 + 5) ∧
    (decode w = .ok .accBytes ↔ w.toNat = 6) ∧
    (decode w = .ok .srBytes ↔ w.toNat = 7) ∧
    (decode w = .ok .status ↔ w.toNat = 8)

/-- R70, R71, R74: no bit of an encoding is dropped. -/
def Obligations.DecodeOfEncodeIsTheCommand : Prop :=
  ∀ i : Instr, i.wellFormed = true → decode (encode i) = .ok i

/-- R70, R74, R78: a command has one word, and what decodes is well formed. -/
def Obligations.EncodeOfDecodeIsTheWord : Prop :=
  ∀ (w : Word) (i : Instr), decode w = .ok i → i.wellFormed = true ∧ encode i = w

/-- R80: the worked encodings, written out, through the assembler and the decoder. -/
def Obligations.WorkedEncodings : Prop :=
  assembleLine "ks_bytes 1".toList = some [0x00000104] ∧
  assembleLine "ks_bytes 16".toList = some [0x00001004] ∧
  assembleLine "auth_streams 4".toList = some [0x00000405] ∧
  assembleLine "auth_streams 0".toList = some [0x00000005] ∧
  assembleLine "ks_bytes 16777215".toList = some [0xFFFFFF04] ∧
  decode 0x00000104 = .ok (.ksBytes 1) ∧
  decode 0x00001004 = .ok (.ksBytes 16) ∧
  decode 0x00000405 = .ok (.authStreams 4) ∧
  decode 0x00000005 = .ok (.authStreams 0) ∧
  decode 0xFFFFFF04 = .ok (.ksBytes 16777215) ∧
  decode 0x00000014 = .error .reservedBits ∧
  decode 0x00000101 = .error .countNotAllowed ∧
  decode 0x00000000 = .error .reservedOpcode

/-- R79: which words the lines of each form give, and which lines the assembler rejects. A line is a mnemonic, alone or
followed by one space and what stands after it; a count is any numeral, decimal or hexadecimal after `0x`. That leading
zeros are read, hexadecimal digits in either case, and a line with its count missing is rejected, is the model's choice
(log 12). -/
def Obligations.AssembledWordsAreCommands : Prop :=
  -- The count-less forms, and `create` as `init` then `diffuse`.
  (assembleLine "init".toList = some [0x00000001] ∧ assembleLine "diffuse".toList = some [0x00000002] ∧
    assembleLine "is_auth".toList = some [0x00000003] ∧ assembleLine "acc_bytes".toList = some [0x00000006] ∧
    assembleLine "sr_bytes".toList = some [0x00000007] ∧ assembleLine "status".toList = some [0x00000008] ∧
    assembleLine "create".toList = some [0x00000001, 0x00000002]) ∧
  -- The two forms with a count, and the range check, in decimal and in hexadecimal.
  (∀ ds : List Nat, ds ≠ [] → (∀ d ∈ ds, d < 10) →
    assembleLine ("ks_bytes".toList ++ ' ' :: numeral ds) =
      (if numeralValue 10 ds < 2 ^ 24 then some [BitVec.ofNat 32 (numeralValue 10 ds * 256 + 4)] else none) ∧
    assembleLine ("auth_streams".toList ++ ' ' :: numeral ds) =
      (if numeralValue 10 ds < 2 ^ 24 then some [BitVec.ofNat 32 (numeralValue 10 ds * 256 + 5)] else none)) ∧
  (∀ ds : List Nat, ds ≠ [] → (∀ d ∈ ds, d < 16) →
    assembleLine ("ks_bytes".toList ++ ' ' :: '0' :: 'x' :: numeral ds) =
      (if numeralValue 16 ds < 2 ^ 24 then some [BitVec.ofNat 32 (numeralValue 16 ds * 256 + 4)] else none) ∧
    assembleLine ("auth_streams".toList ++ ' ' :: '0' :: 'x' :: numeral ds) =
      (if numeralValue 16 ds < 2 ^ 24 then some [BitVec.ofNat 32 (numeralValue 16 ds * 256 + 5)] else none)) ∧
  -- A count that is no such numeral, or is missing, is rejected.
  (∀ m ∈ ["ks_bytes", "auth_streams"], assembleLine m.toList = none ∧
    ∀ (a : List Char) (ws : List Word), a ≠ [] → (∀ c ∈ a, IsTokenChar c) →
      assembleLine (m.toList ++ ' ' :: a) = some ws →
        (∀ c ∈ a, c ∈ "0123456789".toList) ∨
        ∃ cs, a = '0' :: 'x' :: cs ∧ cs ≠ [] ∧ ∀ c ∈ cs, c ∈ "0123456789abcdefABCDEF".toList) ∧
  -- A count, or anything else, after a count-less mnemonic is rejected.
  (∀ m ∈ ["init", "diffuse", "is_auth", "acc_bytes", "sr_bytes", "status", "create"],
    ∀ (c : Char) (rest : List Char), IsTokenChar c → assembleLine (m.toList ++ ' ' :: c :: rest) = none) ∧
  -- Any other mnemonic is rejected, whatever follows it.
  (∀ m : List Char, m ≠ [] → (∀ c ∈ m, IsTokenChar c) →
    m ∉ ["init", "diffuse", "is_auth", "ks_bytes", "auth_streams", "acc_bytes", "sr_bytes", "status",
      "create"].map String.toList →
    assembleLine m = none ∧ ∀ rest : List Char, assembleLine (m ++ ' ' :: rest) = none) ∧
  -- A comment changes nothing.
  (∀ line comment : List Char, assembleLine (line ++ ';' :: comment) = assembleLine line) ∧
  -- Whatever line is accepted, its words are commands, at most two.
  (∀ (line : List Char) (ws : List Word), assembleLine line = some ws →
    ws.length ≤ 2 ∧ ∀ w ∈ ws, ∃ i : Instr, decode w = .ok i)

/-! ### Steps -/

/-- R171, with the model's list of host inputs as the command port (log 4): when the word presented decodes to a command,
the step is `exec` of that command at the state in which the word has been taken from the command port. -/
def Obligations.StepRunsTheDecodedCommand : Prop :=
  ∀ (s : State) (w : Word) (rest : List HostInput) (i : Instr),
    s.inputs = .word w :: rest → decode w = .ok i → step s = exec i { s with inputs := rest }

/-- R171, R213: a word that encodes no command is answered with ILLEGAL_COMMAND and its cause. -/
def Obligations.StepAnswersAnIllegalWord : Prop :=
  ∀ (s : State) (w : Word) (rest : List HostInput) (c : IllegalCause),
    s.inputs = .word w :: rest → decode w = .error c →
      step s = .next (({ s with inputs := rest } : State).illegalWith c)

/-- R224: with nothing presented the state does not change. That the idle engine takes a step at all is the model's choice
(log 4). -/
def Obligations.IdleStepHoldsTheState : Prop :=
  ∀ s : State, s.inputs = [] → step s = .next s

/-- R240, with the model's choice of a reset as one of the host's inputs (log 5): a hardware reset clears every flag,
answers nothing and leaves the engine ready for the next input. Nothing is said of the four registers. -/
def Obligations.HardwareResetClearsTheFlags : Prop :=
  (∀ (s : State) (rest : List HostInput), s.inputs = .reset :: rest →
    ∃ t, step s = .next t ∧ t.engine.initd = false ∧ t.engine.diffused = false ∧ t.engine.diffusing = false ∧
      t.engine.auth = false ∧ t.engine.pop = false ∧ t.engine.mode = .none ∧ t.engine.pv = false ∧
      t.responses = s.responses ∧ t.inputs = rest) ∧
  (State.reset.engine.initd = false ∧ State.reset.engine.diffused = false ∧ State.reset.engine.diffusing = false ∧
    State.reset.engine.auth = false ∧ State.reset.engine.pop = false ∧ State.reset.engine.mode = .none ∧
    State.reset.engine.pv = false ∧ State.reset.responses = [])

/-- R170, R216: every step completes, and a command word is taken from the port and given exactly one response. -/
def Obligations.EveryCommandGetsOneResponse : Prop :=
  ∀ s : State, ∃ t, step s = .next t ∧
    ∀ (w : Word) (rest : List HostInput), s.inputs = .word w :: rest →
      t.inputs = rest ∧ t.draw = s.draw ∧ ∃ r, t.responses = s.responses ++ [r]

/-- R59, R33: the first inputs take effect in order, whatever the host presents after them. That a hardware reset among them
keeps the ones after it is the model's choice (log 5). -/
def Obligations.InputsTakeEffectInOrder : Prop :=
  ∀ (xs ys : List HostInput) (s : State), s.inputs = xs ++ ys →
    ∃ t, Host.Core.run Sys2Proof.core xs.length s = .next t ∧ t.inputs = ys ∧
      Host.Core.run Sys2Proof.core xs.length ({ s with inputs := xs } : State) =
        .next ({ t with inputs := [] } : State)

/-! ### Each command: what it answers, what it writes, and nothing else -/

/-- R150, R151, R38: INIT in every state, its effect on every field, its pattern bit by bit, its repetition and its example. -/
def Obligations.InitLoadsThePattern : Prop :=
  ∀ s : State, ∃ t,
    exec .init s = .next t ∧
    t = s.okWith
      { lfsr := 0x800000000000000000000000FFFFFFFE, nfsr := 0, acc := 0, sreg := 0, diffusing := true, auth := true,
        mode := .none, initd := true, diffused := false, pop := false, pv := s.engine.pv } 0 [] [] ∧
    (∀ j < 128, t.engine.lfsr.getLsbD j = (decide (1 ≤ j ∧ j ≤ 31) || decide (j = 127))) ∧
    t.engine.auth = t.engine.lfsr[127] ∧
    (∃ u, exec .init t = .next u ∧ u.engine = t.engine) ∧
    statusWord t.engine = if s.engine.pv then 0x0000008D else 0x0000000D

/-- R153: DIFFUSE, its two refusals, its effect on every field, and its example. -/
def Obligations.DiffuseRuns256Rounds : Prop :=
  (∀ s : State, s.engine.initd = false → exec .diffuse s = .next (s.violatedWith .notInit)) ∧
  (∀ s : State, s.engine.initd = true → s.engine.diffused = true →
    exec .diffuse s = .next (s.violatedWith .alreadyDiffused)) ∧
  (∀ s : State, s.engine.initd = true → s.engine.diffused = false →
    exec .diffuse s = .next (s.okWith
      { s.engine with lfsr := (s.engine.clocked 256).lfsr, nfsr := (s.engine.clocked 256).nfsr,
                      diffusing := false, diffused := true } 0 [] [])) ∧
  (∀ s : State, s.engine.pv = false → ∃ t u, exec .init s = .next t ∧ exec .diffuse t = .next u ∧
    u.engine.lfsr = 0xA3F545F997EBC74883A7E1384513C974 ∧ u.engine.nfsr = 0x9D2C0C5281D33CB9444720688B0A3A7A ∧
    statusWord u.engine = 0x0000000B)

/-- R175: KS_BYTES n, its three refusals in order, its effect on every field with the bytes it packs (byte k packs outputs
8k to 8k + 7, R176), and its examples. -/
def Obligations.KsBytesPacksThePlainStream : Prop :=
  (∀ (n : Nat) (s : State), s.engine.initd = false → exec (.ksBytes n) s = .next (s.violatedWith .notInit)) ∧
  (∀ (n : Nat) (s : State), s.engine.initd = true → s.engine.diffused = false →
    exec (.ksBytes n) s = .next (s.violatedWith .notDiffused)) ∧
  (∀ (n : Nat) (s : State), s.engine.initd = true → s.engine.diffused = true → s.engine.mode = .auth →
    exec (.ksBytes n) s = .next (s.violatedWith .modeConflict)) ∧
  (∀ (n : Nat) (s : State), s.engine.initd = true → s.engine.diffused = true → s.engine.mode ≠ .auth →
    exec (.ksBytes n) s = .next (s.okWith
      { s.engine with lfsr := (s.engine.clocked (8 * n)).lfsr, nfsr := (s.engine.clocked (8 * n)).nfsr, mode := .plain }
      0 ((List.range n).map fun k => packBits s.engine.outputBit (8 * k) 1) [])) ∧
  (∀ s : State, s.engine = createdEngine →
    (∃ t, exec (.ksBytes 1) s = .next t ∧ t.responses = s.responses ++
      [{ st := .ok, cause := .none, word := 0, out0 := [0x56], out1 := [] }]) ∧
    (∃ t, exec (.ksBytes 16) s = .next t ∧ t.responses = s.responses ++
      [{ st := .ok, cause := .none, word := 0, out1 := [],
         out0 := [0x56, 0x4B, 0x36, 0x22, 0x19, 0xBD, 0x90, 0xE3, 0x01, 0xF2, 0x59, 0xCF, 0x52, 0xBF, 0x5D, 0xA9] }]))

/-- R180: AUTH_STREAMS n, its four refusals in order, its effect on every field on the call that populates and on a later
one (keystream byte k packs the even outputs of group k, macstream byte k the odd ones), and its example. -/
def Obligations.AuthStreamsPopulatesAndSplits : Prop :=
  (∀ (n : Nat) (s : State), s.engine.initd = false → exec (.authStreams n) s = .next (s.violatedWith .notInit)) ∧
  (∀ (n : Nat) (s : State), s.engine.initd = true → s.engine.diffused = false →
    exec (.authStreams n) s = .next (s.violatedWith .notDiffused)) ∧
  (∀ (n : Nat) (s : State), s.engine.initd = true → s.engine.diffused = true → s.engine.auth = false →
    exec (.authStreams n) s = .next (s.violatedWith .notAuth)) ∧
  (∀ (n : Nat) (s : State), s.engine.initd = true → s.engine.diffused = true → s.engine.auth = true →
    s.engine.mode = .plain → exec (.authStreams n) s = .next (s.violatedWith .modeConflict)) ∧
  (∀ (n : Nat) (s : State), s.engine.initd = true → s.engine.diffused = true → s.engine.auth = true →
    s.engine.mode ≠ .plain → s.engine.pop = false →
    ∃ acc sreg : Reg32,
      (∀ i < 32, acc.getLsbD i = s.engine.outputBit i ∧ sreg.getLsbD i = s.engine.outputBit (32 + i)) ∧
      exec (.authStreams n) s = .next (s.okWith
        { s.engine with lfsr := (s.engine.clocked (64 + 16 * n)).lfsr, nfsr := (s.engine.clocked (64 + 16 * n)).nfsr,
                        acc := acc, sreg := sreg, mode := .auth, pop := true }
        0 ((List.range n).map fun k => packBits s.engine.outputBit (64 + 16 * k) 2)
          ((List.range n).map fun k => packBits s.engine.outputBit (64 + 16 * k + 1) 2))) ∧
  (∀ (n : Nat) (s : State), s.engine.initd = true → s.engine.diffused = true → s.engine.auth = true →
    s.engine.mode ≠ .plain → s.engine.pop = true →
    exec (.authStreams n) s = .next (s.okWith
      { s.engine with lfsr := (s.engine.clocked (16 * n)).lfsr, nfsr := (s.engine.clocked (16 * n)).nfsr, mode := .auth }
      0 ((List.range n).map fun k => packBits s.engine.outputBit (16 * k) 2)
        ((List.range n).map fun k => packBits s.engine.outputBit (16 * k + 1) 2))) ∧
  (∀ s : State, s.engine = createdEngine → ∃ t, exec (.authStreams 4) s = .next t ∧
    t.responses = s.responses ++ [{ st := .ok, cause := .none, word := 0, out0 := [0x0D, 0x2B, 0x1F, 0x2E],
                                    out1 := [0x1C, 0xDB, 0xC7, 0xF1] }] ∧
    packRegister t.engine.acc = [0x56, 0x4B, 0x36, 0x22] ∧ packRegister t.engine.sreg = [0x19, 0xBD, 0x90, 0xE3])

/-- R190: IS_AUTH, its refusal and its answer; the example. -/
def Obligations.IsAuthAnswersTheAuthFlag : Prop :=
  (∀ s : State, s.engine.initd = false → exec .isAuth s = .next (s.violatedWith .notInit)) ∧
  (∀ s : State, s.engine.initd = true →
    exec .isAuth s = .next (s.okWith s.engine (if s.engine.auth then 1 else 0) [] [])) ∧
  (∀ s : State, ∃ t u, exec .init s = .next t ∧ exec .isAuth t = .next u ∧ u = t.okWith t.engine 1 [] [])

/-- R191 and R55: ACC_BYTES, its four refusals in order, its answer byte by byte; the example. -/
def Obligations.AccBytesAnswersTheAccumulator : Prop :=
  (∀ s : State, s.engine.initd = false → exec .accBytes s = .next (s.violatedWith .notInit)) ∧
  (∀ s : State, s.engine.initd = true → s.engine.diffused = false →
    exec .accBytes s = .next (s.violatedWith .notDiffused)) ∧
  (∀ s : State, s.engine.initd = true → s.engine.diffused = true → s.engine.auth = false →
    exec .accBytes s = .next (s.violatedWith .notAuth)) ∧
  (∀ s : State, s.engine.initd = true → s.engine.diffused = true → s.engine.auth = true → s.engine.pop = false →
    exec .accBytes s = .next (s.violatedWith .notPopulated)) ∧
  (∀ s : State, s.engine.initd = true → s.engine.diffused = true → s.engine.auth = true → s.engine.pop = true →
    ∃ bytes : List Byte, exec .accBytes s = .next (s.okWith s.engine 0 bytes []) ∧ bytes.length = 4 ∧
      ∀ m < 32, streamBit bytes m = s.engine.acc.getLsbD m) ∧
  (∀ s : State, s.engine = createdEngine → ∃ t u, exec (.authStreams 0) s = .next t ∧ exec .accBytes t = .next u ∧
    u = t.okWith t.engine 0 [0x56, 0x4B, 0x36, 0x22] [])

/-- R192 and R55: SR_BYTES, its four refusals in order, its answer byte by byte; the example. -/
def Obligations.SrBytesAnswersTheShiftRegister : Prop :=
  (∀ s : State, s.engine.initd = false → exec .srBytes s = .next (s.violatedWith .notInit)) ∧
  (∀ s : State, s.engine.initd = true → s.engine.diffused = false →
    exec .srBytes s = .next (s.violatedWith .notDiffused)) ∧
  (∀ s : State, s.engine.initd = true → s.engine.diffused = true → s.engine.auth = false →
    exec .srBytes s = .next (s.violatedWith .notAuth)) ∧
  (∀ s : State, s.engine.initd = true → s.engine.diffused = true → s.engine.auth = true → s.engine.pop = false →
    exec .srBytes s = .next (s.violatedWith .notPopulated)) ∧
  (∀ s : State, s.engine.initd = true → s.engine.diffused = true → s.engine.auth = true → s.engine.pop = true →
    ∃ bytes : List Byte, exec .srBytes s = .next (s.okWith s.engine 0 bytes []) ∧ bytes.length = 4 ∧
      ∀ m < 32, streamBit bytes m = s.engine.sreg.getLsbD m) ∧
  (∀ s : State, s.engine = createdEngine → ∃ t u, exec (.authStreams 0) s = .next t ∧ exec .srBytes t = .next u ∧
    u = t.okWith t.engine 0 [0x19, 0xBD, 0x90, 0xE3] [])

/-- R193: STATUS in every state; it answers the status word of R35 and writes nothing; the examples. -/
def Obligations.StatusAnswersTheStatusWord : Prop :=
  (∀ s : State, exec .status s = .next (s.okWith s.engine (statusWord s.engine) [] [])) ∧
  exec .status State.reset = .next (State.reset.okWith State.reset.engine 0x00000000 [] []) ∧
  (∀ s : State, s.engine = createdEngine →
    exec .status s = .next (s.okWith s.engine 0x0000000B [] []) ∧
    ∃ t u, exec (.ksBytes 1) s = .next t ∧ exec .status t = .next u ∧ u = t.okWith t.engine 0x0000001B [] [])

/-- R35: the status word bit by bit, and its value after reset. -/
def Obligations.StatusWordLayout : Prop :=
  (∀ e : Engine,
    (statusWord e).getLsbD 0 = e.initd ∧ (statusWord e).getLsbD 1 = e.diffused ∧
    (statusWord e).getLsbD 2 = e.diffusing ∧ (statusWord e).getLsbD 3 = e.auth ∧
    (e.mode = .none → (statusWord e).toNat / 16 % 4 = 0) ∧ (e.mode = .plain → (statusWord e).toNat / 16 % 4 = 1) ∧
    (e.mode = .auth → (statusWord e).toNat / 16 % 4 = 2) ∧
    (statusWord e).getLsbD 6 = e.pop ∧ (statusWord e).getLsbD 7 = e.pv ∧
    ∀ j, 8 ≤ j → (statusWord e).getLsbD j = false) ∧
  statusWord State.reset.engine = 0

/-! ### The datapath -/

/-- R100: the linear feedback is the XOR of exactly the six taps: it is 0 on 0, and flipping a bit flips it just for those. -/
def Obligations.LinearFeedbackTaps : Prop :=
  linearFeedback 0 = false ∧ linearFeedback (BitVec.allOnes 128) = false ∧
  (∀ (L : Reg128) (j : Nat), j < 128 →
    linearFeedback (L ^^^ BitVec.twoPow 128 j) = (linearFeedback L ^^ decide (j ∈ [31, 46, 57, 89, 120, 127]))) ∧
  linearFeedback 0x800000000000000000000000FFFFFFFE = false

/-- R102: the nonlinear feedback is the XOR of the listed terms, each the AND of its positions; no position stands in two
terms; the corner cases and examples. -/
def Obligations.NonlinearFeedbackTerms : Prop :=
  (∀ N : Reg128, nonlinearFeedback N =
    ([[31], [36], [71], [101], [127], [43, 59], [60, 124], [62, 66], [68, 100], [79, 87], [109, 110], [114, 116],
      [45, 49, 57], [102, 103, 105], [32, 34, 35, 39]].map fun term => term.all N.getLsbD).foldr xor false) ∧
  (∀ (N M : Reg128), (∀ p ∈ [31, 36, 71, 101, 127, 43, 59, 60, 124, 62, 66, 68, 100, 79, 87, 109, 110, 114, 116,
      45, 49, 57, 102, 103, 105, 32, 34, 35, 39], N.getLsbD p = M.getLsbD p) →
    nonlinearFeedback N = nonlinearFeedback M) ∧
  nonlinearFeedback 0 = false ∧ nonlinearFeedback (BitVec.allOnes 128) = true ∧
  nonlinearFeedback (BitVec.twoPow 128 43 ||| BitVec.twoPow 128 59) = true ∧
  nonlinearFeedback (BitVec.twoPow 128 31 ||| BitVec.twoPow 128 43 ||| BitVec.twoPow 128 59) = false

/-- R106, R107, and the truth table V-H1 of 95_test_vectors.md: with the nine inputs of R106 read as the number v, the
filter is bit v of the table, which has 240 one-bits. -/
def Obligations.FilterFollowsTheTruthTable : Prop :=
  (∀ (L N : Reg128) (v : BitVec 9),
    N.getLsbD 115 = v.getLsbD 0 → L.getLsbD 119 = v.getLsbD 1 → L.getLsbD 114 = v.getLsbD 2 →
    L.getLsbD 107 = v.getLsbD 3 → N.getLsbD 32 = v.getLsbD 4 → L.getLsbD 85 = v.getLsbD 5 →
    L.getLsbD 67 = v.getLsbD 6 → L.getLsbD 48 = v.getLsbD 7 → L.getLsbD 33 = v.getLsbD 8 →
    filter L N = Nat.testBit
      0xD22287772DDD87772DDD7888D22278882DDD7888D22278882DDD7888D22278887888877787778777877778887888788887777888788878888777788878887888
      v.toNat) ∧
  ((List.range 512).filter (Nat.testBit
      0xD22287772DDD87772DDD7888D22278882DDD7888D22278882DDD7888D22278887888877787778777877778887888788887777888788878888777788878887888)).length
    = 240 ∧
  filter (BitVec.twoPow 128 119) (BitVec.twoPow 128 115) = true

/-- R108: the output term is the XOR of exactly the seven NFSR positions. -/
def Obligations.NfsrTermTaps : Prop :=
  nfsrTerm 0 = false ∧ nfsrTerm (BitVec.allOnes 128) = true ∧
  ∀ (N : Reg128) (j : Nat), j < 128 →
    nfsrTerm (N ^^^ BitVec.twoPow 128 j) = (nfsrTerm N ^^ decide (j ∈ [125, 112, 91, 82, 63, 54, 38]))

/-- R109: the round output, its corner cases and its examples. -/
def Obligations.PreOutputTerms : Prop :=
  (∀ L N : Reg128, preOutput L N = (filter L N ^^ L.getLsbD 34 ^^ nfsrTerm N)) ∧
  preOutput 0 0 = false ∧ preOutput (BitVec.allOnes 128) (BitVec.allOnes 128) = true ∧
  (∀ L : Reg128, preOutput L 0 =
    ((L.getLsbD 114 && L.getLsbD 107) ^^ (L.getLsbD 67 && L.getLsbD 48) ^^ L.getLsbD 34)) ∧
  preOutput 0x800000000000000000000000FFFFFFFE 0 = false ∧ preOutput (BitVec.twoPow 128 34) 0 = true

/-- R104: the shift primitive bit by bit and as a number, and its example. -/
def Obligations.ShiftMovesEveryBit : Prop :=
  (∀ (R : Reg128) (fb : Bool),
    (shift R fb).1 = R.getLsbD 127 ∧ (shift R fb).2.getLsbD 0 = fb ∧
    (∀ i, 1 ≤ i → i ≤ 127 → (shift R fb).2.getLsbD i = R.getLsbD (i - 1)) ∧
    (shift R fb).2.toNat = (2 * R.toNat % 2 ^ 128) + fb.toNat ∧
    (shift R fb).1.toNat = R.toNat / 2 ^ 127) ∧
  shift 0x80000000000000000000000000000001 false = (true, 0x00000000000000000000000000000002)

/-- R131: diffusion-phase clocking, bit by bit, with every other field unchanged (R130). -/
def Obligations.DiffusionClockingFeedsTheOutputBack : Prop :=
  ∀ e : Engine, e.diffusing = true →
    e.round.1 = preOutput e.lfsr e.nfsr ∧
    e.round.2 = { e with lfsr := e.round.2.lfsr, nfsr := e.round.2.nfsr } ∧
    e.round.2.lfsr.getLsbD 0 = (linearFeedback e.lfsr ^^ preOutput e.lfsr e.nfsr) ∧
    e.round.2.nfsr.getLsbD 0 =
      (nonlinearFeedback e.nfsr ^^ e.lfsr.getLsbD 127 ^^ preOutput e.lfsr e.nfsr) ∧
    ∀ i, 1 ≤ i → i ≤ 127 → e.round.2.lfsr.getLsbD i = e.lfsr.getLsbD (i - 1) ∧
      e.round.2.nfsr.getLsbD i = e.nfsr.getLsbD (i - 1)

/-- R132: running-phase clocking, bit by bit, with every other field unchanged (R130). -/
def Obligations.RunningClockingKeepsTheOutputOut : Prop :=
  ∀ e : Engine, e.diffusing = false →
    e.round.1 = preOutput e.lfsr e.nfsr ∧
    e.round.2 = { e with lfsr := e.round.2.lfsr, nfsr := e.round.2.nfsr } ∧
    e.round.2.lfsr.getLsbD 0 = linearFeedback e.lfsr ∧
    e.round.2.nfsr.getLsbD 0 = (nonlinearFeedback e.nfsr ^^ e.lfsr.getLsbD 127) ∧
    ∀ i, 1 ≤ i → i ≤ 127 → e.round.2.lfsr.getLsbD i = e.lfsr.getLsbD (i - 1) ∧
      e.round.2.nfsr.getLsbD i = e.nfsr.getLsbD (i - 1)

/-- R136: `rounds(S, k)` is k rounds in sequence; its j-th output is that of the round from the state after j rounds. -/
def Obligations.RoundsIterateTheRound : Prop :=
  ∀ e : Engine, e.rounds 0 = ([], e) ∧
    ∀ k, (e.rounds (k + 1)).2 = ((e.rounds k).2.round).2 ∧
      (e.rounds (k + 1)).1 = (e.rounds k).1 ++ [((e.rounds k).2.round).1] ∧
      (∀ j < k, (e.rounds k).1.getD j false = e.outputBit j)

/-- R54: a byte is its eight bits most significant first: the sum of `b_j · 2^(7 − j)`. -/
def Obligations.BytesArePackedMsbFirst : Prop :=
  ∀ (b : Nat → Bool) (start stride : Nat),
    (packBits b start stride).toNat =
      ((List.range 8).map fun j => (b (start + j * stride)).toNat * 2 ^ (7 - j)).sum

/-! ### Whole-machine rules -/

/-- R32: one step keeps the invariants, from every state that has them. -/
def Obligations.EveryStepKeepsTheInvariants : Prop :=
  ∀ s t : State, s.engine.Inv → step s = .next t → t.engine.Inv

/-- R32, R37: the invariants hold right after reset. -/
def Obligations.ResetHasTheInvariants : Prop := State.reset.engine.Inv

/-- R32: every reachable state satisfies the invariants, whatever the host presents after reset. -/
def Obligations.ReachableStatesHaveTheInvariants : Prop :=
  ∀ (inputs : List HostInput) (k : Nat) (t : State),
    Host.Core.run Sys2Proof.core k ({ State.reset with inputs := inputs } : State) = .next t → t.engine.Inv

/-- R213: an error response goes with no word and no byte, and the command has written nothing but `pv`. -/
def Obligations.ErrorsWriteOnlyPv : Prop :=
  ∀ (s t : State) (w : Word) (rest : List HostInput) (r : Resp),
    s.inputs = .word w :: rest → step s = .next t → t.responses = s.responses ++ [r] → r.st ≠ .ok →
      t.engine = { s.engine with pv := true } ∧ r.word = 0 ∧ r.out0 = [] ∧ r.out1 = []

/-- R31, and R214 with "`pv = 0` at the end" as the premise that no command was in error: an error sets `pv`, an OK response
leaves it, nothing but a hardware reset clears it, the status word shows it, and a run without resets that ends with `pv = 0`
had no error. -/
def Obligations.PvRecordsEveryError : Prop :=
  (∀ (s t : State) (w : Word) (rest : List HostInput) (r : Resp),
    s.inputs = .word w :: rest → step s = .next t → t.responses = s.responses ++ [r] →
      t.engine.pv = (s.engine.pv || decide (r.st ≠ .ok))) ∧
  (∀ s t : State, step s = .next t → s.engine.pv = true → t.engine.pv = false →
    ∃ rest, s.inputs = .reset :: rest) ∧
  (∀ s : State, (statusWord s.engine).getLsbD 7 = s.engine.pv) ∧
  (∀ (k : Nat) (s t : State), HostInput.reset ∉ s.inputs → Host.Core.run Sys2Proof.core k s = .next t → t.Clean →
    s.Clean ∧ ∃ new : List Resp, t.responses = s.responses ++ new ∧ ∀ r ∈ new, r.st = .ok)

/-- R215, R211, R212: the one cause a command word is answered with, as its code, from the numbers of the word's fields and
the flags alone, in the fixed order; and the code of the result that goes with it. -/
def Obligations.CausesInFixedPriority : Prop :=
  ∀ (s : State) (w : Word) (rest : List HostInput), s.inputs = .word w :: rest →
    ∃ t r, step s = .next t ∧ t.responses = s.responses ++ [r] ∧
      r.cause.code.toNat =
        (if w.toNat % 16 = 0 ∨ 9 ≤ w.toNat % 16 then 0x8
        else if w.toNat / 16 % 16 ≠ 0 then 0x9
        else if w.toNat % 16 ≠ 4 ∧ w.toNat % 16 ≠ 5 ∧ w.toNat / 256 ≠ 0 then 0xA
        else if s.engine.initd = false ∧ w.toNat % 16 ≠ 1 ∧ w.toNat % 16 ≠ 8 then 0x1
        else if s.engine.diffused = false ∧ 4 ≤ w.toNat % 16 ∧ w.toNat % 16 ≤ 7 then 0x2
        else if s.engine.diffused = true ∧ w.toNat % 16 = 2 then 0x3
        else if s.engine.auth = false ∧ 5 ≤ w.toNat % 16 ∧ w.toNat % 16 ≤ 7 then 0x4
        else if (w.toNat % 16 = 4 ∧ s.engine.mode = .auth) ∨ (w.toNat % 16 = 5 ∧ s.engine.mode = .plain) then 0x5
        else if s.engine.pop = false ∧ (w.toNat % 16 = 6 ∨ w.toNat % 16 = 7) then 0x6
        else 0) ∧
      r.st.code.toNat = (if r.cause.code.toNat = 0 then 0 else if r.cause.code.toNat < 8 then 1 else 2)

/-- R154: apart from a hardware reset, only a DIFFUSE that completes takes the phase flag from diffusion to running, and the
status word then shows DIFFUSED = 1 and DIFFUSING = 0. -/
def Obligations.OnlyDiffuseEndsTheDiffusionPhase : Prop :=
  ∀ s t : State, step s = .next t → s.engine.diffusing = true → t.engine.diffusing = false →
    (∃ rest, s.inputs = .reset :: rest) ∨
    ((∃ w rest, s.inputs = .word w :: rest ∧ decode w = .ok .diffuse) ∧
      t.engine.diffused = true ∧ (statusWord t.engine).getLsbD 1 = true ∧ (statusWord t.engine).getLsbD 2 = false)

/-- R172: the output-mode state machine. The mode moves as its table says, and a command answered with an error leaves it. -/
def Obligations.ModeLatchMovesAsTheTable : Prop :=
  ∀ (i : Instr) (s t : State) (r : Resp), exec i s = .next t → t.responses = s.responses ++ [r] →
    (i = .init → t.engine.mode = .none) ∧
    (r.st ≠ .ok → t.engine.mode = s.engine.mode) ∧
    (∀ n, i = .ksBytes n → r.st = .ok →
      s.engine.diffused = true ∧ s.engine.mode ≠ .auth ∧ t.engine.mode = .plain) ∧
    (∀ n, i = .authStreams n → r.st = .ok →
      s.engine.diffused = true ∧ s.engine.auth = true ∧ s.engine.mode ≠ .plain ∧ t.engine.mode = .auth) ∧
    (∀ n, i = .authStreams n → s.engine.mode = .plain → r.st = .preconditionViolation ∧ t.engine.mode = .plain ∧
      (s.engine.initd = true → s.engine.diffused = true → s.engine.auth = true →
        r.cause = .precondition .modeConflict)) ∧
    (∀ n, i = .ksBytes n → s.engine.mode = .auth → r.st = .preconditionViolation ∧ t.engine.mode = .auth ∧
      (s.engine.initd = true → s.engine.diffused = true → r.cause = .precondition .modeConflict)) ∧
    (∀ n, i = .ksBytes n → s.engine.initd = true → s.engine.diffused = true → s.engine.mode ≠ .auth → r.st = .ok) ∧
    (∀ n, i = .authStreams n → s.engine.initd = true → s.engine.diffused = true → s.engine.auth = true →
      s.engine.mode ≠ .plain → r.st = .ok) ∧
    ((i = .diffuse ∨ i = .isAuth ∨ i = .accBytes ∨ i = .srBytes ∨ i = .status) → t.engine.mode = s.engine.mode)

/-- R25 to R30, R23, R24: which commands may change which flag or authentication register, and to what. -/
def Obligations.FlagsHaveTheirWritersOnly : Prop :=
  ∀ (i : Instr) (s t : State), exec i s = .next t →
    (t.engine.diffusing ≠ s.engine.diffusing →
      (i = .init ∧ t.engine.diffusing = true) ∨ (i = .diffuse ∧ t.engine.diffusing = false)) ∧
    (t.engine.auth ≠ s.engine.auth → i = .init ∧ t.engine.auth = true) ∧
    (t.engine.initd ≠ s.engine.initd → i = .init ∧ t.engine.initd = true) ∧
    (t.engine.diffused ≠ s.engine.diffused →
      (i = .init ∧ t.engine.diffused = false) ∨ (i = .diffuse ∧ t.engine.diffused = true)) ∧
    (t.engine.pop ≠ s.engine.pop →
      (i = .init ∧ t.engine.pop = false) ∨ ((∃ n, i = .authStreams n) ∧ t.engine.pop = true)) ∧
    ((t.engine.acc ≠ s.engine.acc ∨ t.engine.sreg ≠ s.engine.sreg) →
      i = .init ∨ ((∃ n, i = .authStreams n) ∧ s.engine.pop = false ∧ t.engine.pop = true)) ∧
    ((t.engine.lfsr ≠ s.engine.lfsr ∨ t.engine.nfsr ≠ s.engine.nfsr) →
      i = .init ∨ i = .diffuse ∨ (∃ n, i = .ksBytes n) ∨ ∃ n, i = .authStreams n)

/-- R58: the four queries write nothing when they succeed, and a second one gives the same response. -/
def Obligations.QueriesAreIdempotent : Prop :=
  ∀ (i : Instr) (s t : State) (r : Resp), i ∈ [Instr.isAuth, .accBytes, .srBytes, .status] →
    exec i s = .next t → t.responses = s.responses ++ [r] → r.st = .ok →
      t.engine = s.engine ∧ t.inputs = s.inputs ∧ t.draw = s.draw ∧
      exec i t = .next { t with responses := t.responses ++ [r] }

/-- R241: reset is not INIT. Until INIT runs, every command but INIT and STATUS is refused with NOT_INIT, and only INIT ends
that; unlike reset, INIT gives the registers their values and does not clear `pv`. -/
def Obligations.ResetIsNotInit : Prop :=
  State.reset.engine.initd = false ∧
  (∀ (i : Instr) (s : State), s.engine.initd = false → i ≠ .init → i ≠ .status →
    exec i s = .next (s.violatedWith .notInit)) ∧
  (∀ s : State, s.engine.initd = false → ∃ t, exec .status s = .next t ∧ t.engine = s.engine) ∧
  (∀ s : State, ∃ t, exec .init s = .next t ∧ t.engine.initd = true ∧
    t.engine.lfsr = 0x800000000000000000000000FFFFFFFE ∧ t.engine.nfsr = 0 ∧ t.engine.acc = 0 ∧ t.engine.sreg = 0 ∧
    t.engine.pv = s.engine.pv)

/-- R195, R245: every command clocks the registers an exact number of times. A count n of 2^24 or more is no command of the
hardware, and that `exec` runs it is the model's choice (log 9). -/
def Obligations.RoundsPerCommandAreExact : Prop :=
  ∀ (i : Instr) (s t : State) (r : Resp), i ≠ .init → exec i s = .next t → t.responses = s.responses ++ [r] →
    ∃ rounds : Nat, t.engine.lfsr = (s.engine.clocked rounds).lfsr ∧ t.engine.nfsr = (s.engine.clocked rounds).nfsr ∧
      rounds = roundsUsed s.engine i ∧
      (r.st ≠ .ok → rounds = 0) ∧
      (r.st = .ok → i = .diffuse → rounds = 256) ∧
      (r.st = .ok → ∀ n, i = .ksBytes n → rounds = 8 * n) ∧
      (r.st = .ok → ∀ n, i = .authStreams n → s.engine.pop = false → rounds = 64 + 16 * n) ∧
      (r.st = .ok → ∀ n, i = .authStreams n → s.engine.pop = true → rounds = 16 * n) ∧
      (i = .isAuth ∨ i = .accBytes ∨ i = .srBytes ∨ i = .status → rounds = 0)

/-! ### Streams -/

/-- R194: successive extractions concatenate to what one call gives and leave the same engine; in authenticated mode once
populated. A count n, m or n + m of 2^24 or more is no command of the hardware, and that `exec` runs it is the model's choice
(log 9). -/
def Obligations.SplitExtractionsConcatenate : Prop :=
  (∀ (n m : Nat) (s : State), s.engine.initd = true → s.engine.diffused = true → s.engine.mode ≠ .auth →
    ∃ (a b c : State) (x y : List Byte),
      exec (.ksBytes n) s = .next a ∧ a = s.okWith a.engine 0 x [] ∧
      exec (.ksBytes m) a = .next b ∧ b = a.okWith b.engine 0 y [] ∧
      exec (.ksBytes (n + m)) s = .next c ∧ c = s.okWith b.engine 0 (x ++ y) []) ∧
  (∀ (n m : Nat) (s : State), s.engine.initd = true → s.engine.diffused = true → s.engine.auth = true →
    s.engine.mode ≠ .plain → s.engine.pop = true →
    ∃ (a b c : State) (x y u v : List Byte),
      exec (.authStreams n) s = .next a ∧ a = s.okWith a.engine 0 x u ∧
      exec (.authStreams m) a = .next b ∧ b = a.okWith b.engine 0 y v ∧
      exec (.authStreams (n + m)) s = .next c ∧ c = s.okWith b.engine 0 (x ++ y) (u ++ v))

/-- R55, R181: from one freshly diffused engine, what ACC_BYTES and then SR_BYTES read after the first AUTH_STREAMS is what
KS_BYTES 8 gives instead. A count n of 2^24 or more is no command of the hardware, and that `exec` runs it is the model's
choice (log 9). -/
def Obligations.ReadoutIsTheFirstPlainBytes : Prop :=
  ∀ (n : Nat) (s : State), s.engine.initd = true → s.engine.diffused = true → s.engine.auth = true →
    s.engine.mode = .none → s.engine.pop = false →
    ∃ (p a b c : State) (x y : List Byte),
      exec (.ksBytes 8) s = .next p ∧ p = s.okWith p.engine 0 (x ++ y) [] ∧
      exec (.authStreams n) s = .next a ∧
      exec .accBytes a = .next b ∧ b = a.okWith a.engine 0 x [] ∧
      exec .srBytes b = .next c ∧ c = b.okWith b.engine 0 y []

/-- R185, R195: authenticated mode splits the plain stream of the same engine: after the first 64 bits, group k gives its even
bits to keystream byte k and its odd bits to macstream byte k, in order, and both runs end with equal registers. A count n or
8 + 2n of 2^24 or more is no command of the hardware (R71), and that `exec` runs it is the model's choice (log 9). -/
def Obligations.AuthStreamsSplitThePlainStream : Prop :=
  ∀ (n : Nat) (s : State), s.engine.initd = true → s.engine.diffused = true → s.engine.auth = true →
    s.engine.mode = .none → s.engine.pop = false →
    ∃ (p a : State) (plain ks mac : List Byte),
      exec (.ksBytes (8 + 2 * n)) s = .next p ∧ p = s.okWith p.engine 0 plain [] ∧ plain.length = 8 + 2 * n ∧
      exec (.authStreams n) s = .next a ∧ a = s.okWith a.engine 0 ks mac ∧ ks.length = n ∧ mac.length = n ∧
      a.engine.lfsr = p.engine.lfsr ∧ a.engine.nfsr = p.engine.nfsr ∧
      (∀ i < 32, a.engine.acc.getLsbD i = streamBit plain i ∧ a.engine.sreg.getLsbD i = streamBit plain (32 + i)) ∧
      (∀ m < 8 * n, streamBit ks m = streamBit plain (64 + 2 * m) ∧
        streamBit mac m = streamBit plain (64 + 2 * m + 1))

/-! ### Independence -/

/-- R156: `create` ends from every state with two OK responses and one and the same engine, `pv` as before; and whatever the
host presents next, two engines so created give identical results, causes and byte sequences. That a run goes on past an
error response is the model's choice (log 3). -/
def Obligations.CreateReproducesTheStreams : Prop :=
  (∀ s : State, ∃ t u, exec .init s = .next t ∧ exec .diffuse t = .next u ∧
    u.engine = { createdEngine with pv := s.engine.pv } ∧
    u.responses = s.responses ++ [{ st := .ok, cause := .none, word := 0, out0 := [], out1 := [] },
                                  { st := .ok, cause := .none, word := 0, out0 := [], out1 := [] }]) ∧
  (∀ (ws : List Word) (s s' : State),
    s.inputs = .word 1 :: .word 2 :: ws.map .word → s'.inputs = .word 1 :: .word 2 :: ws.map .word →
    ∃ (t t' : State) (new new' : List Resp),
      Host.Core.run Sys2Proof.core (ws.length + 2) s = .next t ∧ t.responses = s.responses ++ new ∧
      Host.Core.run Sys2Proof.core (ws.length + 2) s' = .next t' ∧ t'.responses = s'.responses ++ new' ∧
      new.map (fun r => (r.st, r.cause, r.out0, r.out1)) = new'.map (fun r => (r.st, r.cause, r.out0, r.out1)))

/-- R37: what the registers hold before INIT is unobservable. Two states that differ only in the four registers, not yet
initialised, give the same responses to everything the host presents. -/
def Obligations.UninitialisedRegistersAreUnobservable : Prop :=
  ∀ (k : Nat) (s : State) (e : Engine), s.engine.initd = false → e.SameFlags s.engine →
    ∃ t t' : State, Host.Core.run Sys2Proof.core k s = .next t ∧
      Host.Core.run Sys2Proof.core k ({ s with engine := e } : State) = .next t' ∧
      t.responses = t'.responses ∧ t.inputs = t'.inputs

/-- R60, R39: however the instances' steps are interleaved, each instance ends where its own steps alone take it. The platform
as a list, the interleaving as a list of instance numbers, and that the step of an absent instance does nothing, are the
model's choice (log 10). -/
def Obligations.InstancesAreIndependent : Prop :=
  ∀ (ks : List Nat) (p : Platform), ∃ q : Platform, p.run ks = .next q ∧ q.instances.length = p.instances.length ∧
    ∀ (k : Nat) (s : State), p.instances[k]? = some s →
      ∃ t : State, q.instances[k]? = some t ∧ Host.Core.run Sys2Proof.core (ks.count k) s = .next t

/-- R37, as a step lemma: two states that are equal but for the four registers while INIT has not run, and equal once it has,
stay so in every step, and their responses with them. -/
def Obligations.StepsKeepStatesAlikeUntilInit : Prop :=
  ∀ s s' t t' : State, s.AlikeUntilInit s' → step s = .next t → step s' = .next t' → t.AlikeUntilInit t'
end

