-- ==== Sys2Proof/Laws/Decode.lean ====
section
/-!
SUPPORT. The fields of a command word as numbers, and of an encoded word (30_encoding.md R70).
-/

namespace Sys2Proof

theorem opcField_toNat (w : Word) : (opcField w).toNat = w.toNat % 16 := by
  simp [opcField, BitVec.extractLsb'_toNat]

theorem rsvField_toNat (w : Word) : (rsvField w).toNat = w.toNat / 16 % 16 := by
  simp [rsvField, BitVec.extractLsb'_toNat, Nat.shiftRight_eq_div_pow]

theorem countField_eq (w : Word) : countField w = w.toNat / 256 := by
  have := w.isLt
  simp [countField, BitVec.extractLsb'_toNat, Nat.shiftRight_eq_div_pow]
  omega

/-- An encoded word as a number: COUNT above RSV = 0 above OPC (R70). -/
theorem encode_toNat (i : Instr) : (encode i).toNat = (i.count % 2 ^ 24) * 256 + i.opcode.toNat := by
  have := i.opcode.isLt
  rw [encode, BitVec.toNat_append, BitVec.toNat_append, BitVec.toNat_ofNat]
  simp only [BitVec.toNat_ofNat, Nat.zero_mod, Nat.or_zero, Nat.shiftLeft_eq]
  rw [show i.count % 2 ^ 24 * 2 ^ 4 * 2 ^ 4 = 2 ^ 4 * (i.count % 2 ^ 24 * 2 ^ 4) by omega,
    ← Nat.two_pow_add_eq_or_of_lt this]
  omega

theorem opcField_encode (i : Instr) : (opcField (encode i)).toNat = i.opcode.toNat := by
  have := i.opcode.isLt
  rw [opcField_toNat, encode_toNat]
  omega

theorem rsvField_encode (i : Instr) : rsvField (encode i) = 0 := by
  apply BitVec.eq_of_toNat_eq
  have := i.opcode.isLt
  rw [rsvField_toNat, encode_toNat, show (0 : BitVec 4).toNat = 0 from rfl]
  omega

theorem countField_encode (i : Instr) : countField (encode i) = i.count % 2 ^ 24 := by
  have := i.opcode.isLt
  rw [countField_eq, encode_toNat]
  omega

/-- What a word of fields that the opcode map accepts decodes to (R78). -/
theorem decode_eq_ok {w : Word} {i : Instr} (hs : selectOp (opcField w).toNat (countField w) = some i)
    (hr : rsvField w = 0) (hc : i.usesCount = true ∨ countField w = 0) : decode w = .ok i := by
  rw [decode, hs]
  rcases hc with hc | hc <;> simp [hr, hc]

/-- A decoded word's fields are what the opcode map accepts (R78). -/
theorem decode_ok {w : Word} {i : Instr} (h : decode w = .ok i) :
    selectOp (opcField w).toNat (countField w) = some i ∧ rsvField w = 0 ∧
      (i.usesCount = true ∨ countField w = 0) := by
  unfold decode at h
  split at h
  · cases h
  · rename_i j hj
    split at h
    · cases h
    · rename_i hr
      split at h
      · cases h
      · rename_i hc
        injection h with h
        subst h
        refine ⟨hj, by simpa using hr, ?_⟩
        by_cases hu : j.usesCount = true
        · exact .inl hu
        · right
          by_contra hne
          exact hc ⟨by simpa using hu, hne⟩

end Sys2Proof
end

