-- ==== Sys2Proof/Laws/Assembler.lean ====
section
/-!
SUPPORT. The assembler's reading of a line, said once for each of its functions (30_encoding.md R79): where the tokens of a line
end, what a numeral reads as, what a mnemonic with its operands gives.
-/

namespace Sys2Proof.Machine

theorem isBlank_of_tokenChar {c : Char} (h : IsTokenChar c) : isBlank c = false := by
  simp [isBlank, h.1, h.2.1]

/-- A token that ends the line. -/
theorem tokens_token {a : List Char} (cur : List Char) (ha : ∀ c ∈ a, IsTokenChar c) :
    tokens cur a = if (cur.reverse ++ a).isEmpty then [] else [cur.reverse ++ a] := by
  induction a generalizing cur with
  | nil => cases cur <;> simp [tokens]
  | cons c a ih =>
    rw [tokens, isBlank_of_tokenChar (ha c (by simp)), if_neg (by decide), ih _ fun d hd => ha d (by simp [hd])]
    simp

/-- A token that a space ends. -/
theorem tokens_space {m : List Char} (cur rest : List Char) (hm : ∀ c ∈ m, IsTokenChar c) :
    tokens cur (m ++ ' ' :: rest) =
      if (cur.reverse ++ m).isEmpty then tokens [] rest else (cur.reverse ++ m) :: tokens [] rest := by
  induction m generalizing cur with
  | nil => cases cur <;> simp [tokens, isBlank]
  | cons c m ih =>
    rw [List.cons_append, tokens, isBlank_of_tokenChar (hm c (by simp)), if_neg (by decide),
      ih _ fun d hd => hm d (by simp [hd])]
    simp

/-- Once something has been read there is a token. -/
theorem tokens_ne_nil {cur : List Char} (h : cur ≠ []) (line : List Char) : tokens cur line ≠ [] := by
  induction line generalizing cur with
  | nil => simp [tokens, h]
  | cons c line ih =>
    rw [tokens]
    split
    · simp [h]
    · exact ih (by simp)

/-- What stands before the comment of a line whose first part has no `;`. -/
theorem takeWhile_token {m : List Char} (rest : List Char) (hm : ∀ c ∈ m, IsTokenChar c) :
    (m ++ rest).takeWhile (· != ';') = m ++ rest.takeWhile (· != ';') :=
  List.takeWhile_append_of_pos fun c hc => by simpa using (hm c hc).2.2

/-- A digit's character reads as the digit (R79: decimal, or hexadecimal). -/
theorem digitValue_digitChar {base d : Nat} (hb : base ≤ 16) (hd : d < base) :
    digitValue base d.digitChar = some d := by
  have h : ∀ b : Fin 17, ∀ e : Fin 16, e.val < b.val → digitValue b.val e.val.digitChar = some e.val := by decide
  exact h ⟨base, by omega⟩ ⟨d, by omega⟩ hd

/-- Reading a numeral goes on from the part already read. -/
theorem readDigits_numeral {base : Nat} (hb : base ≤ 16) {ds : List Nat} (v : Nat) (h : ∀ d ∈ ds, d < base) :
    readDigits base v (numeral ds) = some (ds.foldl (fun v d => base * v + d) v) := by
  induction ds generalizing v with
  | nil => rfl
  | cons d ds ih =>
    simp only [numeral, List.map_cons, readDigits, digitValue_digitChar hb (h d (by simp)), List.foldl_cons]
    rw [Nat.mul_comm base v]
    exact ih _ fun e he => h e (by simp [he])

/-- A character between two others is one of those in between, by number. -/
theorem char_between {a b c : Char} (h : a ≤ c ∧ c ≤ b) : ∃ n, a.toNat ≤ n ∧ n ≤ b.toNat ∧ c = Char.ofNat n :=
  ⟨c.toNat, Char.le_def.1 h.1, Char.le_def.1 h.2, (Char.ofNat_toNat c).symm⟩

theorem decimal_chars {c : Char} (h : '0' ≤ c ∧ c ≤ '9') : c ∈ "0123456789".toList := by
  obtain ⟨n, ha, hb, rfl⟩ := char_between h
  simp only [Char.reduceToNat] at ha hb
  interval_cases n <;> decide

theorem letter_chars {c : Char} (h : ('a' ≤ c ∧ c ≤ 'f') ∨ ('A' ≤ c ∧ c ≤ 'F')) : c ∈ "abcdefABCDEF".toList := by
  rcases h with h | h <;>
  · obtain ⟨n, ha, hb, rfl⟩ := char_between h
    simp only [Char.reduceToNat] at ha hb
    interval_cases n <;> decide

/-- A character that reads as a digit is one of R79's: a decimal digit, or past base 10 a letter. -/
theorem digitValue_char {base d : Nat} {c : Char} (h : digitValue base c = some d) :
    c ∈ "0123456789".toList ∨ (10 < base ∧ c ∈ "abcdefABCDEF".toList) := by
  unfold digitValue at h
  by_cases h1 : '0' ≤ c ∧ c ≤ '9'
  · exact .inl (decimal_chars h1)
  · right
    by_cases h2 : 'a' ≤ c ∧ c ≤ 'f'
    · simp only [h1, h2, and_self, if_true, if_false] at h
      split at h
      · exact ⟨by omega, letter_chars (.inl h2)⟩
      · cases h
    · by_cases h3 : 'A' ≤ c ∧ c ≤ 'F'
      · simp only [h1, h2, h3, and_self, if_true, if_false] at h
        split at h
        · exact ⟨by omega, letter_chars (.inr h3)⟩
        · cases h
      · simp [h1, h2, h3] at h

/-- What reads as a number consists of digits. -/
theorem readDigits_chars {base n : Nat} {cs : List Char} {v : Nat} (h : readDigits base v cs = some n) :
    ∀ c ∈ cs, c ∈ "0123456789".toList ∨ (10 < base ∧ c ∈ "abcdefABCDEF".toList) := by
  induction cs generalizing v with
  | nil => simp
  | cons c cs ih =>
    rw [readDigits] at h
    split at h
    · rename_i d hd
      intro e he
      rcases List.mem_cons.1 he with rfl | he
      · exact digitValue_char hd
      · exact ih h e he
    · cases h

/-- What does not go on with `x` is read in decimal. -/
theorem readCount_of_ne_x {c : Char} {cs : List Char} (h : ∀ e ∈ cs, e ≠ 'x') :
    readCount (c :: cs) = readDigits 10 0 (c :: cs) := by
  unfold readCount
  split
  · contradiction
  · rename_i heq
    simp only [List.cons.injEq] at heq
    exact absurd rfl (h 'x' (by simp [heq.2]))
  · rename_i heq
    rw [heq]

/-- A decimal numeral reads as its number. -/
theorem readCount_decimal {ds : List Nat} (hne : ds ≠ []) (h : ∀ d ∈ ds, d < 10) :
    readCount (numeral ds) = some (numeralValue 10 ds) := by
  have hx : ∀ d < 10, d.digitChar ≠ 'x' := by decide
  rcases ds with _ | ⟨d, ds⟩
  · exact absurd rfl hne
  · refine (readCount_of_ne_x fun c hc => ?_).trans (readDigits_numeral (by omega) 0 h)
    obtain ⟨e, he, rfl⟩ := List.mem_map.1 hc
    exact hx e (h e (by simp [he]))

/-- A hexadecimal numeral after `0x` reads as its number. -/
theorem readCount_hex {ds : List Nat} (hne : ds ≠ []) (h : ∀ d ∈ ds, d < 16) :
    readCount ('0' :: 'x' :: numeral ds) = some (numeralValue 16 ds) := by
  have key := readDigits_numeral (base := 16) (by omega) 0 h
  rcases ds with _ | ⟨d, ds⟩
  · exact absurd rfl hne
  · exact key

/-- What reads as a count is written in decimal or as `0x` hex (R79). -/
theorem readCount_chars {a : List Char} {n : Nat} (h : readCount a = some n) :
    (∀ c ∈ a, c ∈ "0123456789".toList) ∨
    ∃ cs, a = '0' :: 'x' :: cs ∧ cs ≠ [] ∧ ∀ c ∈ cs, c ∈ "0123456789abcdefABCDEF".toList := by
  unfold readCount at h
  split at h
  · cases h
  · rename_i c cs
    refine .inr ⟨c :: cs, rfl, by simp, fun e he => ?_⟩
    have := readDigits_chars h e he
    rw [show "0123456789abcdefABCDEF".toList = "0123456789".toList ++ "abcdefABCDEF".toList by decide]
    simp only [List.mem_append]
    tauto
  · refine .inl fun e he => (readDigits_chars h e he).resolve_right ?_
    omega

/-- The characters of a numeral can stand in a token. -/
theorem numeral_tokenChars {ds : List Nat} (h : ∀ d ∈ ds, d < 16) : ∀ c ∈ numeral ds, IsTokenChar c := by
  have key : ∀ d < 16, IsTokenChar d.digitChar := by decide
  intro c hc
  obtain ⟨d, hd, rfl⟩ := List.mem_map.1 hc
  exact key d (h d hd)

/-- The tokens of a line that is one token. -/
theorem lineTokens_one {m : List Char} (hne : m ≠ []) (hm : ∀ c ∈ m, IsTokenChar c) :
    tokens [] (m.takeWhile (· != ';')) = [m] := by
  have := takeWhile_token [] hm
  simp only [List.append_nil, List.takeWhile_nil] at this
  rw [this, tokens_token [] hm]
  simp [hne]

/-- The tokens of a line that is a token, a space, and what follows. -/
theorem lineTokens_space {m : List Char} (hne : m ≠ []) (hm : ∀ c ∈ m, IsTokenChar c) (rest : List Char) :
    tokens [] ((m ++ ' ' :: rest).takeWhile (· != ';')) = m :: tokens [] (rest.takeWhile (· != ';')) := by
  rw [takeWhile_token _ hm, List.takeWhile_cons_of_pos (by decide), tokens_space [] _ hm]
  simp [hne]

/-- A line with one token is its mnemonic without an operand. -/
theorem assembleLine_one {m : List Char} (hne : m ≠ []) (hm : ∀ c ∈ m, IsTokenChar c) :
    assembleLine m =
      match asmMnemonics.find? fun p => p.1.toList == m with
      | some (_, .plain is) => is.mapM assembleInstr
      | _ => none := by
  rw [assembleLine, lineTokens_one hne hm]
  dsimp only
  generalize asmMnemonics.find? (fun p => p.1.toList == m) = entry
  rcases entry with _ | ⟨_, _ | _⟩ <;> rfl

/-- A line with two tokens is its mnemonic with that operand. -/
theorem assembleLine_two {m a : List Char} (hne : m ≠ []) (hm : ∀ c ∈ m, IsTokenChar c) (hna : a ≠ [])
    (ha : ∀ c ∈ a, IsTokenChar c) :
    assembleLine (m ++ ' ' :: a) =
      match asmMnemonics.find? fun p => p.1.toList == m with
      | some (_, .counted mk) => (readCount a).bind fun n => (assembleInstr (mk n)).map fun w => [w]
      | _ => none := by
  rw [assembleLine, lineTokens_space hne hm, lineTokens_one hna ha]
  dsimp only
  generalize asmMnemonics.find? (fun p => p.1.toList == m) = entry
  rcases entry with _ | ⟨_, _ | _⟩ <;> rfl

/-- A comment changes nothing (R79). -/
theorem assembleLine_comment (line comment : List Char) :
    assembleLine (line ++ ';' :: comment) = assembleLine line := by
  have h : (line ++ ';' :: comment).takeWhile (· != ';') = line.takeWhile (· != ';') := by
    induction line with
    | nil => rfl
    | cons c line ih =>
      simp only [List.cons_append, List.takeWhile_cons, ih]
  rw [assembleLine, assembleLine, h]

/-- A command with a count is its word where the count is in range (R70, R71), and is rejected otherwise (R79). -/
theorem assembleInstr_counted {n k : Nat} {i : Instr} (hw : i.wellFormed = countFits n) (hc : i.count = n)
    (ho : i.opcode.toNat = k) :
    ((assembleInstr i).map fun w => [w]) = if n < 2 ^ 24 then some [BitVec.ofNat 32 (n * 256 + k)] else none := by
  have hk := i.opcode.isLt
  rw [assembleInstr, hw]
  by_cases hn : n < 2 ^ 24
  · have hfit : countFits n = true := decide_eq_true hn
    have hword : encode i = BitVec.ofNat 32 (n * 256 + k) := by
      apply BitVec.eq_of_toNat_eq
      rw [encode_toNat, BitVec.toNat_ofNat, hc, ho]
      omega
    simp only [hfit, hn, hword, if_true, Option.map_some]
  · have hfit : countFits n = false := decide_eq_false hn
    simpa [hfit] using hn

end Sys2Proof.Machine
end

