-- ==== Sys2Proof/Laws/Bits.lean ====
section
/-!
SUPPORT. What the shift, the packing of bytes and the loading of registers do, bit by bit (40_functions.md R104; 20_memory.md R54;
43_extraction.md R181).
-/

namespace Sys2Proof.Machine

/-- The bit that leaves is the old bit 127 (R104). -/
@[simp] theorem shift_out (R : Reg128) (fb : Bool) : (shift R fb).1 = R[127] := rfl

/-- Every bit of the shifted register (R104). -/
theorem shift_getLsbD (R : Reg128) (fb : Bool) (i : Nat) :
    (shift R fb).2.getLsbD i = if i = 0 then fb else decide (i < 128) && R.getLsbD (i - 1) := by
  rcases i with _ | i
  · simp [shift]
  · simp [shift]

/-- The shifted register as a number (R104). -/
theorem shift_toNat (R : Reg128) (fb : Bool) : (shift R fb).2.toNat = (2 * R.toNat + fb.toNat) % 2 ^ 128 := by
  have h : (shift R fb).2 = R.shiftConcat fb := by
    apply BitVec.eq_of_getLsbD_eq
    intro i hi
    rw [shift_getLsbD, BitVec.getLsbD_shiftConcat]
    rcases i with _ | i <;> simp_all
  rw [h, BitVec.toNat_shiftConcat, Nat.shiftLeft_eq, Nat.mul_comm]

/-- `pack8` puts its first bit at weight 7 and its last at weight 0 (R54). -/
theorem pack8_bits (b0 b1 b2 b3 b4 b5 b6 b7 : Bool) :
    (pack8 b0 b1 b2 b3 b4 b5 b6 b7).getLsbD 7 = b0 ∧ (pack8 b0 b1 b2 b3 b4 b5 b6 b7).getLsbD 6 = b1 ∧
    (pack8 b0 b1 b2 b3 b4 b5 b6 b7).getLsbD 5 = b2 ∧ (pack8 b0 b1 b2 b3 b4 b5 b6 b7).getLsbD 4 = b3 ∧
    (pack8 b0 b1 b2 b3 b4 b5 b6 b7).getLsbD 3 = b4 ∧ (pack8 b0 b1 b2 b3 b4 b5 b6 b7).getLsbD 2 = b5 ∧
    (pack8 b0 b1 b2 b3 b4 b5 b6 b7).getLsbD 1 = b6 ∧ (pack8 b0 b1 b2 b3 b4 b5 b6 b7).getLsbD 0 = b7 := by
  revert b0 b1 b2 b3 b4 b5 b6 b7
  decide +kernel

/-- A packed byte holds bit `j` of its sequence at weight `7 - j` (R54). -/
theorem packBits_getLsbD (b : Nat → Bool) (start stride : Nat) {j : Nat} (hj : j < 8) :
    (packBits b start stride).getLsbD (7 - j) = b (start + j * stride) := by
  obtain ⟨h7, h6, h5, h4, h3, h2, h1, h0⟩ := pack8_bits (b start) (b (start + stride)) (b (start + 2 * stride))
    (b (start + 3 * stride)) (b (start + 4 * stride)) (b (start + 5 * stride)) (b (start + 6 * stride))
    (b (start + 7 * stride))
  have hcases : j = 0 ∨ j = 1 ∨ j = 2 ∨ j = 3 ∨ j = 4 ∨ j = 5 ∨ j = 6 ∨ j = 7 := by omega
  rcases hcases with rfl | rfl | rfl | rfl | rfl | rfl | rfl | rfl
  · rw [Nat.zero_mul, Nat.add_zero]; exact h7
  · rw [Nat.one_mul]; exact h6
  · exact h5
  · exact h4
  · exact h3
  · exact h2
  · exact h1
  · exact h0

/-- Two packings of equal bits are equal. -/
theorem packBits_congr {b b' : Nat → Bool} {start start' stride stride' : Nat}
    (h : ∀ j < 8, b (start + j * stride) = b' (start' + j * stride')) :
    packBits b start stride = packBits b' start' stride' := by
  have h0 := h 0 (by omega)
  have h1 := h 1 (by omega)
  simp only [Nat.zero_mul, Nat.one_mul, Nat.add_zero] at h0 h1
  simp only [packBits, h0, h1, h 2 (by omega), h 3 (by omega), h 4 (by omega), h 5 (by omega), h 6 (by omega),
    h 7 (by omega)]

/-- A register loaded from bits holds them in generation order (R181). -/
theorem loadBits_getLsbD (ys : List Bool) {i : Nat} (hi : i < 32) : (loadBits ys).getLsbD i = bitOf ys i := by
  induction ys generalizing i with
  | nil => simp [loadBits, bitOf]
  | cons b bs ih =>
    rcases i with _ | i
    · simp [loadBits, bitOf]
    · rw [show bitOf (b :: bs) (i + 1) = bitOf bs i from rfl, ← ih (i := i) (by omega), loadBits,
        BitVec.getLsbD_or, BitVec.getLsbD_shiftLeft]
      simp [hi]

end Sys2Proof.Machine
end

