-- ==== Sys2Proof/Laws/State.lean ====
section
/-!
SUPPORT. What each update of the state leaves in each field. True by definition, tagged for simp, so that no later proof
unfolds a record update.
-/

namespace Sys2Proof.Machine

@[simp] theorem State.answer_engine (s : State) (e : Engine) (r : Resp) : (s.answer e r).engine = e := rfl
@[simp] theorem State.answer_inputs (s : State) (e : Engine) (r : Resp) : (s.answer e r).inputs = s.inputs := rfl
@[simp] theorem State.answer_responses (s : State) (e : Engine) (r : Resp) :
    (s.answer e r).responses = s.responses ++ [r] := rfl
@[simp] theorem State.answer_draw (s : State) (e : Engine) (r : Resp) : (s.answer e r).draw = s.draw := rfl

@[simp] theorem State.raise_engine (s : State) (c : Cause) : (s.raise c).engine = { s.engine with pv := true } := rfl
@[simp] theorem State.raise_inputs (s : State) (c : Cause) : (s.raise c).inputs = s.inputs := rfl
@[simp] theorem State.raise_responses (s : State) (c : Cause) :
    (s.raise c).responses = s.responses ++ [Resp.error c] := rfl
@[simp] theorem State.raise_draw (s : State) (c : Cause) : (s.raise c).draw = s.draw := rfl

@[simp] theorem State.hardwareReset_engine (s : State) : s.hardwareReset.engine = Engine.afterReset s.draw := rfl
@[simp] theorem State.hardwareReset_inputs (s : State) : s.hardwareReset.inputs = s.inputs := rfl
@[simp] theorem State.hardwareReset_responses (s : State) : s.hardwareReset.responses = s.responses := rfl
@[simp] theorem State.hardwareReset_draw (s : State) :
    s.hardwareReset.draw = { s.draw with next := s.draw.next + 1 } := rfl

@[simp] theorem State.present_engine (s : State) (w : Word) : (s.present w).engine = s.engine := rfl
@[simp] theorem State.present_inputs (s : State) (w : Word) : (s.present w).inputs = .word w :: s.inputs := rfl
@[simp] theorem State.present_responses (s : State) (w : Word) : (s.present w).responses = s.responses := rfl
@[simp] theorem State.present_draw (s : State) (w : Word) : (s.present w).draw = s.draw := rfl

@[simp] theorem Resp.ok_st (r : Reply) : (Resp.ok r).st = .ok := rfl
@[simp] theorem Resp.ok_cause (r : Reply) : (Resp.ok r).cause = .none := rfl
@[simp] theorem Resp.ok_word (r : Reply) : (Resp.ok r).word = r.word := rfl
@[simp] theorem Resp.ok_out0 (r : Reply) : (Resp.ok r).out0 = r.out0 := rfl
@[simp] theorem Resp.ok_out1 (r : Reply) : (Resp.ok r).out1 = r.out1 := rfl
@[simp] theorem Resp.error_st (c : Cause) : (Resp.error c).st = c.st := rfl
@[simp] theorem Resp.error_cause (c : Cause) : (Resp.error c).cause = c := rfl
@[simp] theorem Resp.error_word (c : Cause) : (Resp.error c).word = 0 := rfl
@[simp] theorem Resp.error_out0 (c : Cause) : (Resp.error c).out0 = [] := rfl
@[simp] theorem Resp.error_out1 (c : Cause) : (Resp.error c).out1 = [] := rfl

/-- Every flag of the engine after a hardware reset is clear and its mode is NONE (10_state.md R37); its registers are the
free draws and are not looked into. -/
theorem Engine.afterReset_flags (d : DrawCursor) :
    (Engine.afterReset d).diffusing = false ∧ (Engine.afterReset d).auth = false ∧
    (Engine.afterReset d).mode = .none ∧ (Engine.afterReset d).initd = false ∧
    (Engine.afterReset d).diffused = false ∧ (Engine.afterReset d).pop = false ∧
    (Engine.afterReset d).pv = false :=
  ⟨rfl, rfl, rfl, rfl, rfl, rfl, rfl⟩

/-- Taking an input from an empty port gives nothing. -/
theorem State.takeInput_nil {s : State} (h : s.inputs = []) : s.takeInput = none := by
  simp [State.takeInput, h]

/-- Taking an input removes the first one and changes nothing else. -/
theorem State.takeInput_cons {s : State} {x : HostInput} {rest : List HostInput} (h : s.inputs = x :: rest) :
    s.takeInput = some (x, { s with inputs := rest }) := by
  simp [State.takeInput, h]

end Sys2Proof.Machine
end

