-- ==== Sys2Proof/Laws/Rounds.lean ====
section
/-!
SUPPORT. What rounds do (41_round.md R130 to R136): the frame of a round, runs of rounds cut in two, and their outputs.
-/

namespace Sys2Proof.Machine

/-- A round writes the two shift registers and nothing else (R130). -/
theorem Engine.round_frame (e : Engine) :
    e.round.2 = { e with lfsr := e.round.2.lfsr, nfsr := e.round.2.nfsr } := by
  unfold Engine.round
  split <;> rfl

/-- The output of a round is the pre-output of the pre-round registers (R130, R133). -/
theorem Engine.round_output (e : Engine) : e.round.1 = preOutput e.lfsr e.nfsr := by
  unfold Engine.round
  split <;> rfl

/-- The LFSR after a round (R131, R132). -/
theorem Engine.round_lfsr (e : Engine) :
    e.round.2.lfsr =
      (shift e.lfsr (linearFeedback e.lfsr ^^ (e.diffusing && preOutput e.lfsr e.nfsr))).2 := by
  unfold Engine.round
  split <;> simp_all

/-- The NFSR after a round (R131, R132). -/
theorem Engine.round_nfsr (e : Engine) :
    e.round.2.nfsr =
      (shift e.nfsr (nonlinearFeedback e.nfsr ^^ e.lfsr[127] ^^ (e.diffusing && preOutput e.lfsr e.nfsr))).2 := by
  unfold Engine.round
  split <;> simp_all

@[simp] theorem Engine.round_diffusing (e : Engine) : e.round.2.diffusing = e.diffusing := by rw [round_frame]

theorem Engine.rounds_succ (e : Engine) (k : Nat) :
    e.rounds (k + 1) = (e.round.1 :: (e.round.2.rounds k).1, (e.round.2.rounds k).2) := rfl

@[simp] theorem Engine.clocked_zero (e : Engine) : e.clocked 0 = e := rfl

theorem Engine.clocked_succ (e : Engine) (k : Nat) : e.clocked (k + 1) = e.round.2.clocked k := rfl

theorem Engine.rounds_snd (e : Engine) (k : Nat) : (e.rounds k).2 = e.clocked k := rfl

/-- Runs of rounds compose (R136). -/
theorem Engine.clocked_add (e : Engine) (a b : Nat) : e.clocked (a + b) = (e.clocked a).clocked b := by
  induction a generalizing e with
  | zero => simp
  | succ a ih => rw [show a + 1 + b = (a + b) + 1 by omega, clocked_succ, ih, clocked_succ]

/-- Rounds write the two shift registers and nothing else. -/
theorem Engine.clocked_frame (e : Engine) (k : Nat) :
    e.clocked k = { e with lfsr := (e.clocked k).lfsr, nfsr := (e.clocked k).nfsr } := by
  induction k generalizing e with
  | zero => rfl
  | succ k ih =>
    rw [clocked_succ, ih, round_frame]

@[simp] theorem Engine.clocked_acc (e : Engine) (k : Nat) : (e.clocked k).acc = e.acc := by rw [clocked_frame]
@[simp] theorem Engine.clocked_sreg (e : Engine) (k : Nat) : (e.clocked k).sreg = e.sreg := by rw [clocked_frame]
@[simp] theorem Engine.clocked_diffusing (e : Engine) (k : Nat) : (e.clocked k).diffusing = e.diffusing := by
  rw [clocked_frame]
@[simp] theorem Engine.clocked_auth (e : Engine) (k : Nat) : (e.clocked k).auth = e.auth := by rw [clocked_frame]
@[simp] theorem Engine.clocked_mode (e : Engine) (k : Nat) : (e.clocked k).mode = e.mode := by rw [clocked_frame]
@[simp] theorem Engine.clocked_initd (e : Engine) (k : Nat) : (e.clocked k).initd = e.initd := by rw [clocked_frame]
@[simp] theorem Engine.clocked_diffused (e : Engine) (k : Nat) : (e.clocked k).diffused = e.diffused := by
  rw [clocked_frame]
@[simp] theorem Engine.clocked_pop (e : Engine) (k : Nat) : (e.clocked k).pop = e.pop := by rw [clocked_frame]
@[simp] theorem Engine.clocked_pv (e : Engine) (k : Nat) : (e.clocked k).pv = e.pv := by rw [clocked_frame]

/-- A run of k rounds gives k output bits. -/
theorem Engine.rounds_length (e : Engine) (k : Nat) : (e.rounds k).1.length = k := by
  induction k generalizing e with
  | zero => rfl
  | succ k ih => simp [rounds_succ, ih]

/-- Output j of a run is the output of round j (R136). -/
theorem Engine.rounds_bit (e : Engine) {k j : Nat} (hj : j < k) : bitOf (e.rounds k).1 j = e.outputBit j := by
  induction k generalizing e j with
  | zero => omega
  | succ k ih =>
    rcases j with _ | j
    · rfl
    · have := ih e.round.2 (j := j) (by omega)
      simpa [bitOf, rounds_succ, outputBit, clocked_succ] using this

/-- Outputs counted from a later state. -/
theorem Engine.outputBit_clocked (e : Engine) (a j : Nat) : (e.clocked a).outputBit j = e.outputBit (a + j) := by
  simp [outputBit, clocked_add]

/-- A round reads the two shift registers and the phase flag, nothing else (R130). -/
theorem Engine.round_congr {e f : Engine} (hl : e.lfsr = f.lfsr) (hn : e.nfsr = f.nfsr)
    (hd : e.diffusing = f.diffusing) :
    e.round.1 = f.round.1 ∧ e.round.2.lfsr = f.round.2.lfsr ∧ e.round.2.nfsr = f.round.2.nfsr := by
  simp [round_output, round_lfsr, round_nfsr, hl, hn, hd]

/-- Rounds read the two shift registers and the phase flag, nothing else. -/
theorem Engine.clocked_congr {e f : Engine} (hl : e.lfsr = f.lfsr) (hn : e.nfsr = f.nfsr)
    (hd : e.diffusing = f.diffusing) (k : Nat) :
    (e.clocked k).lfsr = (f.clocked k).lfsr ∧ (e.clocked k).nfsr = (f.clocked k).nfsr := by
  induction k generalizing e f with
  | zero => exact ⟨hl, hn⟩
  | succ k ih =>
    obtain ⟨-, hl', hn'⟩ := round_congr hl hn hd
    exact ih hl' hn' (by simp [hd])

/-- Outputs depend on the two shift registers and the phase flag, nothing else. -/
theorem Engine.outputBit_congr {e f : Engine} (hl : e.lfsr = f.lfsr) (hn : e.nfsr = f.nfsr)
    (hd : e.diffusing = f.diffusing) (j : Nat) : e.outputBit j = f.outputBit j := by
  obtain ⟨hl', hn'⟩ := clocked_congr hl hn hd j
  exact (round_congr hl' hn' (by simp [hd])).1

end Sys2Proof.Machine
end

