-- ==== Sys2Proof/Laws/Streams.lean ====
section
/-!
SUPPORT. The byte streams in closed form: which round outputs each byte packs, and how many rounds a run consumes (43_extraction.md
R176, R181, R185, R195).
-/

namespace Sys2Proof.Machine

/-- The values of a function at 0 to n, its value at 0 first. -/
theorem map_range_succ {α : Type} (f : Nat → α) (n : Nat) :
    (List.range (n + 1)).map f = f 0 :: (List.range n).map fun k => f (k + 1) := by
  simp [List.range_succ_eq_map, Function.comp_def]

theorem Engine.plainBytes_succ (e : Engine) (n : Nat) :
    e.plainBytes (n + 1) =
      (packBits (bitOf (e.rounds 8).1) 0 1 :: ((e.clocked 8).plainBytes n).1, ((e.clocked 8).plainBytes n).2) := rfl

/-- n bytes of plain keystream consume 8n rounds (R195). -/
theorem Engine.plainBytes_engine (e : Engine) (n : Nat) : (e.plainBytes n).2 = e.clocked (8 * n) := by
  induction n generalizing e with
  | zero => rfl
  | succ n ih => rw [plainBytes_succ, ih, show 8 * (n + 1) = 8 + 8 * n by omega, clocked_add]

/-- Byte k of plain keystream packs outputs `8k` to `8k + 7` (R176). -/
theorem Engine.plainBytes_bytes (e : Engine) (n : Nat) :
    (e.plainBytes n).1 = (List.range n).map fun k => packBits e.outputBit (8 * k) 1 := by
  induction n generalizing e with
  | zero => rfl
  | succ n ih =>
    rw [plainBytes_succ, ih, map_range_succ]
    refine congrArg₂ List.cons (packBits_congr fun j hj => rounds_bit e (by omega)) (List.map_congr_left fun k _ => ?_)
    refine packBits_congr fun j _ => ?_
    rw [outputBit_clocked]
    exact congrArg e.outputBit (by omega)

theorem Engine.authBytes_succ (e : Engine) (n : Nat) :
    e.authBytes (n + 1) =
      { keystream := packBits (bitOf (e.rounds 16).1) 0 2 :: ((e.clocked 16).authBytes n).keystream
        macstream := packBits (bitOf (e.rounds 16).1) 1 2 :: ((e.clocked 16).authBytes n).macstream
        engine := ((e.clocked 16).authBytes n).engine } := rfl

/-- n groups consume 16n rounds (R195). -/
theorem Engine.authBytes_engine (e : Engine) (n : Nat) : (e.authBytes n).engine = e.clocked (16 * n) := by
  induction n generalizing e with
  | zero => rfl
  | succ n ih => rw [authBytes_succ, ih, show 16 * (n + 1) = 16 + 16 * n by omega, clocked_add]

/-- Keystream byte k packs the even outputs of group k (R185). -/
theorem Engine.authBytes_keystream (e : Engine) (n : Nat) :
    (e.authBytes n).keystream = (List.range n).map fun k => packBits e.outputBit (16 * k) 2 := by
  induction n generalizing e with
  | zero => rfl
  | succ n ih =>
    rw [authBytes_succ, ih, map_range_succ]
    refine congrArg₂ List.cons (packBits_congr fun j hj => rounds_bit e (by omega)) (List.map_congr_left fun k _ => ?_)
    refine packBits_congr fun j _ => ?_
    rw [outputBit_clocked]
    exact congrArg e.outputBit (by omega)

/-- Macstream byte k packs the odd outputs of group k (R185). -/
theorem Engine.authBytes_macstream (e : Engine) (n : Nat) :
    (e.authBytes n).macstream = (List.range n).map fun k => packBits e.outputBit (16 * k + 1) 2 := by
  induction n generalizing e with
  | zero => rfl
  | succ n ih =>
    rw [authBytes_succ, ih, map_range_succ]
    refine congrArg₂ List.cons (packBits_congr fun j hj => rounds_bit e (by omega)) (List.map_congr_left fun k _ => ?_)
    refine packBits_congr fun j _ => ?_
    rw [outputBit_clocked]
    exact congrArg e.outputBit (by omega)

/-- Population as one update: 64 rounds, and the two registers loaded (R181). -/
theorem Engine.populate_eq (e : Engine) :
    e.populate = { e.clocked 64 with
      acc := loadBits (e.rounds 32).1, sreg := loadBits ((e.clocked 32).rounds 32).1, pop := true } := by
  have h : e.clocked 64 = (e.clocked 32).clocked 32 := e.clocked_add 32 32
  rw [h]
  simp only [populate, rounds_snd]

/-- `acc[i]` is output i, `sreg[i]` is output `32 + i` (R181). -/
theorem Engine.populate_bits (e : Engine) {i : Nat} (hi : i < 32) :
    e.populate.acc.getLsbD i = e.outputBit i ∧ e.populate.sreg.getLsbD i = e.outputBit (32 + i) := by
  rw [populate_eq]
  refine ⟨?_, ?_⟩
  · simp only [loadBits_getLsbD _ hi]
    exact rounds_bit _ hi
  · simp only [loadBits_getLsbD _ hi]
    rw [rounds_bit _ hi, outputBit_clocked]

end Sys2Proof.Machine
end

