-- ==== Sys2Proof/Laws/Command.lean ====
section
/-!
SUPPORT. What a command and a step can do, said once: a command either raises the first failing check's cause or has its whole
effect (43_extraction.md R171), and a step is one of four things.
-/

namespace Sys2Proof.Machine

/-- Every meaning is its checks and its effect (R171). -/
theorem exec_eq_runCommand (i : Instr) (s : State) : exec i s = s.runCommand (checksOf s.engine i) (effectOf i) := by
  cases i <;> rfl

/-- No check fails just when each of them passes. -/
theorem firstFailure_eq_none {checks : Checks} : firstFailure checks = none ↔ ∀ p ∈ checks, p.1 = false := by
  induction checks with
  | nil => simp [firstFailure]
  | cons p rest ih =>
    obtain ⟨fails, c⟩ := p
    cases fails <;> simp [firstFailure, ih]

/-- A cause reported is that of a check which fails. -/
theorem firstFailure_eq_some {checks : Checks} {c : PreconditionCause} (h : firstFailure checks = some c) :
    (true, c) ∈ checks := by
  induction checks with
  | nil => cases h
  | cons p rest ih =>
    obtain ⟨fails, d⟩ := p
    cases fails with
    | true => simp_all [firstFailure]
    | false => exact List.mem_cons_of_mem _ (ih (by simpa [firstFailure] using h))

/-- A command whose check fails raises the cause of the first failing check. -/
theorem State.runCommand_error {s : State} {checks : Checks} {c : PreconditionCause}
    (h : firstFailure checks = some c) (effect : Engine → Engine × Reply) :
    s.runCommand checks effect = .next (s.raise (.precondition c)) := by
  simp [State.runCommand, h]

/-- A command whose checks all pass has its effect and answers OK. -/
theorem State.runCommand_ok {s : State} {checks : Checks} (h : firstFailure checks = none)
    (effect : Engine → Engine × Reply) :
    s.runCommand checks effect = .next (s.answer (effect s.engine).1 (Resp.ok (effect s.engine).2)) := by
  simp [State.runCommand, h]

/-- What a command can do: raise one cause, or have its whole effect. -/
theorem exec_cases {i : Instr} {s t : State} (h : exec i s = .next t) :
    (∃ c, firstFailure (checksOf s.engine i) = some c ∧ t = s.raise (.precondition c)) ∨
    (firstFailure (checksOf s.engine i) = none ∧
      t = s.answer (effectOf i s.engine).1 (Resp.ok (effectOf i s.engine).2)) := by
  rw [exec_eq_runCommand] at h
  cases hc : firstFailure (checksOf s.engine i) with
  | some c =>
    rw [State.runCommand_error hc] at h
    injection h with h
    exact .inl ⟨c, rfl, h.symm⟩
  | none =>
    rw [State.runCommand_ok hc] at h
    injection h with h
    exact .inr ⟨rfl, h.symm⟩

/-- Every command is answered: none stops the machine (60_exceptions.md R213, R216). -/
theorem exec_next (i : Instr) (s : State) : ∃ t, exec i s = .next t := by
  rw [exec_eq_runCommand]
  unfold State.runCommand
  split <;> exact ⟨_, rfl⟩

/-- With nothing presented a step holds the state (60_exceptions.md R224). -/
theorem step_idle {s : State} (h : s.inputs = []) : step s = .next s := by
  simp [step, State.takeInput_nil h]

/-- A hardware reset input resets the block (70_reset_and_hazards.md R240). -/
theorem step_reset {s : State} {rest : List HostInput} (h : s.inputs = .reset :: rest) :
    step s = .next ({ s with inputs := rest } : State).hardwareReset := by
  simp [step, State.takeInput_cons h]

/-- A word that encodes no command is answered with IllegalCommand (R171). -/
theorem step_illegal {s : State} {w : Word} {rest : List HostInput} {c : IllegalCause}
    (h : s.inputs = .word w :: rest) (hd : decode w = .error c) :
    step s = .next (({ s with inputs := rest } : State).raise (.illegal c)) := by
  simp [step, State.takeInput_cons h, hd]

/-- A word that encodes a command runs it (R171). -/
theorem step_command {s : State} {w : Word} {rest : List HostInput} {i : Instr}
    (h : s.inputs = .word w :: rest) (hd : decode w = .ok i) : step s = exec i { s with inputs := rest } := by
  simp [step, State.takeInput_cons h, hd]

/-- What a step can do. -/
theorem step_cases {s t : State} (h : step s = .next t) :
    (s.inputs = [] ∧ t = s) ∨
    (∃ rest, s.inputs = .reset :: rest ∧ t = ({ s with inputs := rest } : State).hardwareReset) ∨
    (∃ w rest c, s.inputs = .word w :: rest ∧ decode w = .error c ∧
      t = ({ s with inputs := rest } : State).raise (.illegal c)) ∨
    (∃ w rest i, s.inputs = .word w :: rest ∧ decode w = .ok i ∧ exec i { s with inputs := rest } = .next t) := by
  rcases hi : s.inputs with _ | ⟨_ | _, rest⟩
  · rw [step_idle hi] at h
    injection h with h
    exact .inl ⟨rfl, h.symm⟩
  · rename_i w
    cases hd : decode w with
    | error c =>
      rw [step_illegal hi hd] at h
      injection h with h
      exact .inr (.inr (.inl ⟨w, rest, c, rfl, hd, h.symm⟩))
    | ok i =>
      rw [step_command hi hd] at h
      exact .inr (.inr (.inr ⟨w, rest, i, rfl, hd, h⟩))
  · rw [step_reset hi] at h
    injection h with h
    exact .inr (.inl ⟨rest, rfl, h.symm⟩)

/-- Every step answers a next state. -/
theorem step_next (s : State) : ∃ t, step s = .next t := by
  rcases hi : s.inputs with _ | ⟨_ | _, rest⟩
  · exact ⟨_, step_idle hi⟩
  · rename_i w
    cases hd : decode w with
    | error c => exact ⟨_, step_illegal hi hd⟩
    | ok i =>
      obtain ⟨t, ht⟩ := exec_next i { s with inputs := rest }
      exact ⟨t, (step_command hi hd).trans ht⟩
  · exact ⟨_, step_reset hi⟩

end Sys2Proof.Machine
end

