-- ==== Sys2Proof/Laws/Effects.lean ====
section
/-!
SUPPORT. What the effects of the commands that clock the registers are, in closed form: the fields they write and the bytes they
give (42_init_diffuse.md R153; 43_extraction.md R175, R180, R181).
-/

namespace Sys2Proof.Machine

/-- Latching a mode before a round or after it is the same. -/
theorem Engine.round_latch (e : Engine) (m : Mode) :
    ({ e with mode := m } : Engine).round = (e.round.1, { e.round.2 with mode := m }) := by
  unfold Engine.round
  dsimp only
  split <;> rfl

/-- Latching a mode before some rounds or after them is the same. -/
theorem Engine.rounds_latch (e : Engine) (m : Mode) (k : Nat) :
    ({ e with mode := m } : Engine).rounds k = ((e.rounds k).1, { (e.rounds k).2 with mode := m }) := by
  induction k generalizing e with
  | zero => rfl
  | succ k ih => simp only [rounds_succ, round_latch, ih]

/-- Latching a mode before some rounds or after them is the same. -/
theorem Engine.clocked_latch (e : Engine) (m : Mode) (k : Nat) :
    ({ e with mode := m } : Engine).clocked k = { e.clocked k with mode := m } := by
  simp only [clocked, rounds_latch]

/-- Latching a mode changes no output. -/
theorem Engine.outputBit_latch (e : Engine) (m : Mode) : ({ e with mode := m } : Engine).outputBit = e.outputBit := by
  funext j
  simp only [outputBit, clocked_latch, round_latch]

/-- Rounds write the two shift registers and nothing else, as an equation between records. -/
theorem Engine.clocked_mk (e : Engine) (k : Nat) (m : Mode) :
    { e.clocked k with mode := m } =
      { e with lfsr := (e.clocked k).lfsr, nfsr := (e.clocked k).nfsr, mode := m } := by
  conv => lhs; rw [clocked_frame]

/-- DIFFUSE writes the two shift registers and the two phase fields (R153). -/
theorem diffuseEffect_eq (e : Engine) :
    diffuseEffect e =
      ({ e with lfsr := (e.clocked 256).lfsr, nfsr := (e.clocked 256).nfsr, diffusing := false, diffused := true },
        Reply.empty) := by
  unfold diffuseEffect
  rw [Engine.clocked_frame]

/-- KS_BYTES writes the two shift registers and the mode latch, and gives the packed outputs (R175, R176). -/
theorem ksBytesEffect_eq (n : Nat) (e : Engine) :
    ksBytesEffect n e =
      ({ e with lfsr := (e.clocked (8 * n)).lfsr, nfsr := (e.clocked (8 * n)).nfsr, mode := .plain },
        { word := 0, out0 := (List.range n).map fun k => packBits e.outputBit (8 * k) 1, out1 := [] }) := by
  simp only [ksBytesEffect, Engine.plainBytes_engine, Engine.plainBytes_bytes, Engine.outputBit_latch,
    Engine.clocked_latch, Engine.clocked_mk]

/-- Once populated, entering authenticated mode only latches it (R180). -/
theorem enterAuth_later {e : Engine} (h : e.pop = true) : enterAuth e = { e with mode := .auth } := by
  simp only [enterAuth, h, if_true]

/-- The first entry into authenticated mode populates (R181). -/
theorem enterAuth_first {e : Engine} (h : e.pop = false) : enterAuth e = { e.populate with mode := .auth } := by
  unfold enterAuth
  dsimp only
  rw [if_neg (by simp [h])]
  simp only [Engine.populate, Engine.rounds_latch]

/-- Population leaves the flags but the population flag (R180). -/
theorem Engine.populate_frame (e : Engine) :
    e.populate.diffusing = e.diffusing ∧ e.populate.auth = e.auth ∧ e.populate.initd = e.initd ∧
    e.populate.diffused = e.diffused ∧ e.populate.pop = true ∧ e.populate.pv = e.pv := by
  simp [populate_eq]

/-- Population clocks the registers 64 times; nothing later depends on ACC, SREG or the population flag. -/
theorem Engine.populate_clocked (e : Engine) (k : Nat) :
    (e.populate.clocked k).lfsr = (e.clocked (64 + k)).lfsr ∧
    (e.populate.clocked k).nfsr = (e.clocked (64 + k)).nfsr := by
  rw [clocked_add]
  exact clocked_congr (by rw [populate_eq]) (by rw [populate_eq]) (by rw [populate_eq]) k

/-- Outputs after population are those from output 64 on (R181). -/
theorem Engine.populate_outputBit (e : Engine) (j : Nat) : e.populate.outputBit j = e.outputBit (64 + j) := by
  rw [← outputBit_clocked]
  exact outputBit_congr (by rw [populate_eq]) (by rw [populate_eq]) (by rw [populate_eq]) j

/-- A later AUTH_STREAMS writes the two shift registers and the mode latch, and gives the two demultiplexed streams
(R180, R185). -/
theorem authStreamsEffect_later (n : Nat) {e : Engine} (h : e.pop = true) :
    authStreamsEffect n e =
      ({ e with lfsr := (e.clocked (16 * n)).lfsr, nfsr := (e.clocked (16 * n)).nfsr, mode := .auth },
        { word := 0
          out0 := (List.range n).map fun k => packBits e.outputBit (16 * k) 2
          out1 := (List.range n).map fun k => packBits e.outputBit (16 * k + 1) 2 }) := by
  simp only [authStreamsEffect, enterAuth_later h, Engine.authBytes_engine, Engine.authBytes_keystream,
    Engine.authBytes_macstream, Engine.outputBit_latch, Engine.clocked_latch, Engine.clocked_mk]

/-- The first AUTH_STREAMS also writes ACC, SREG and the population flag, and its streams start at output 64
(R180, R181, R185). -/
theorem authStreamsEffect_first (n : Nat) {e : Engine} (h : e.pop = false) :
    authStreamsEffect n e =
      ({ e with lfsr := (e.clocked (64 + 16 * n)).lfsr, nfsr := (e.clocked (64 + 16 * n)).nfsr,
                acc := e.populate.acc, sreg := e.populate.sreg, mode := .auth, pop := true },
        { word := 0
          out0 := (List.range n).map fun k => packBits e.outputBit (64 + 16 * k) 2
          out1 := (List.range n).map fun k => packBits e.outputBit (64 + 16 * k + 1) 2 }) := by
  have hout : e.populate.outputBit = fun j => e.outputBit (64 + j) := funext e.populate_outputBit
  obtain ⟨hl, hn⟩ := e.populate_clocked (16 * n)
  simp only [authStreamsEffect, enterAuth_first h, Engine.authBytes_engine, Engine.authBytes_keystream,
    Engine.authBytes_macstream, Engine.outputBit_latch, Engine.clocked_latch, hl, hn, hout]
  refine Prod.ext ?_ ?_
  · simp only [Engine.clocked_acc, Engine.clocked_sreg, Engine.clocked_diffusing, Engine.clocked_auth,
      Engine.clocked_initd, Engine.clocked_diffused, Engine.clocked_pop, Engine.clocked_pv, Engine.populate_frame]
  · refine congrArg₂ (fun a b => ({ word := 0, out0 := a, out1 := b } : Reply))
      (List.map_congr_left fun k _ => packBits_congr fun j _ => ?_)
      (List.map_congr_left fun k _ => packBits_congr fun j _ => ?_)
    · exact congrArg e.outputBit (by omega)
    · exact congrArg e.outputBit (by omega)

/-- A 32-bit register read out as 4 bytes holds its bits in order (R55). -/
theorem packRegister_getLsbD (R : Reg32) {k j : Nat} (hk : k < 4) (hj : j < 8) :
    ((packRegister R).getD k 0).getLsbD (7 - j) = R.getLsbD (8 * k + j) := by
  have h : ∀ start, (packBits R.getLsbD start 1).getLsbD (7 - j) = R.getLsbD (start + j) := fun start => by
    rw [packBits_getLsbD _ _ _ hj, Nat.mul_one]
  have hcases : k = 0 ∨ k = 1 ∨ k = 2 ∨ k = 3 := by omega
  rcases hcases with rfl | rfl | rfl | rfl
  · exact h 0
  · exact h 8
  · exact h 16
  · exact h 24

end Sys2Proof.Machine
end

