-- ==== Sys2Proof/Laws/PerInstr.lean ====
section
/-!
SUPPORT. Statements made per instruction: the encoding of each well-formed command decodes to it (30_encoding.md R70, R74, R78).
-/

namespace Sys2Proof.Laws.RoundTrip

/-- Decoding the encoding of a well-formed command gives the command back. -/
def Statement (i : Instr) : Prop := i.wellFormed = true → decode (encode i) = .ok i

theorem init : Statement .init := fun _ => rfl
theorem diffuse : Statement .diffuse := fun _ => rfl
theorem isAuth : Statement .isAuth := fun _ => rfl

theorem ksBytes (count : Nat) : Statement (.ksBytes count) := by
  intro h
  have hn : count < 2 ^ 24 := of_decide_eq_true h
  refine decode_eq_ok ?_ (rsvField_encode _) (.inl rfl)
  rw [opcField_encode, countField_encode, Instr.count, Nat.mod_eq_of_lt hn]
  rfl

theorem authStreams (count : Nat) : Statement (.authStreams count) := by
  intro h
  have hn : count < 2 ^ 24 := of_decide_eq_true h
  refine decode_eq_ok ?_ (rsvField_encode _) (.inl rfl)
  rw [opcField_encode, countField_encode, Instr.count, Nat.mod_eq_of_lt hn]
  rfl

theorem accBytes : Statement .accBytes := fun _ => rfl
theorem srBytes : Statement .srBytes := fun _ => rfl
theorem status : Statement .status := fun _ => rfl

end Sys2Proof.Laws.RoundTrip
end

