-- ==== Sys2Proof/Laws/Run.lean ====
section
/-!
SUPPORT. Runs of the machine behind the host's interface, one step at a time.
-/

namespace Sys2Proof.Machine

/-- A run of no step. -/
@[simp] theorem run_zero (s : State) : Host.Core.run Sys2Proof.core 0 s = .next s := rfl

/-- A run of one step more. -/
theorem run_succ (k : Nat) {s t : State} (h : step s = .next t) :
    Host.Core.run Sys2Proof.core (k + 1) s = Host.Core.run Sys2Proof.core k t := by
  have hc : Sys2Proof.core.step s = .next t := h
  simp only [Host.Core.run, hc]

/-- A rule that holds of every step holds of every run, so an invariant that each step keeps, each run keeps. -/
theorem run_keeps {P : State → Prop} (hstep : ∀ s t, P s → step s = .next t → P t) :
    ∀ (k : Nat) (s t : State), P s → Host.Core.run Sys2Proof.core k s = .next t → P t := by
  intro k
  induction k with
  | zero =>
    intro s t hs h
    injection h with h
    exact h ▸ hs
  | succ k ih =>
    intro s t hs h
    obtain ⟨u, hu⟩ := step_next s
    rw [run_succ k hu] at h
    exact ih u t (hstep s u hs hu) h

/-- Every run answers a next state. -/
theorem run_next (k : Nat) (s : State) : ∃ t, Host.Core.run Sys2Proof.core k s = .next t := by
  induction k generalizing s with
  | zero => exact ⟨s, rfl⟩
  | succ k ih =>
    obtain ⟨u, hu⟩ := step_next s
    obtain ⟨t, ht⟩ := ih u
    exact ⟨t, (run_succ k hu).trans ht⟩

end Sys2Proof.Machine
end

