-- ==== Sys2Proof/Tests/Slice0.lean ====
section
/-!
SUPPORT. The model's own tests. Expected results are the spec's: words written out from 30_encoding.md R70 and R74, the derived
vectors of 95_test_vectors.md (named V-…), and the worked examples of the rules. The witnesses show that the hypotheses
of the statements can be met.
-/

namespace Sys2Proof.Tests

open Sys2Proof.Machine

/-! ### Well-formedness: the one check, at and over its bound -/

theorem test_wellFormed_largest_counts :
    (Instr.ksBytes 16777215).wellFormed = true ∧ (Instr.authStreams 16777215).wellFormed = true := by decide
theorem test_wellFormed_refuses_ksBytes : (Instr.ksBytes 16777216).wellFormed = false := by decide
theorem test_wellFormed_refuses_authStreams : (Instr.authStreams 16777216).wellFormed = false := by decide

/-! ### Decoding: COUNT in bits 31:8, RSV in 7:4, OPC in 3:0 (R70, R74) -/

theorem test_decode_init : decode 0b00000000000000000000000000000001 = .ok .init := by decide
theorem test_decode_diffuse : decode 0b00000000000000000000000000000010 = .ok .diffuse := by decide
theorem test_decode_isAuth : decode 0b00000000000000000000000000000011 = .ok .isAuth := by decide
theorem test_decode_ksBytes : decode 0b00000000000000000000000100000100 = .ok (.ksBytes 1) := by decide
theorem test_decode_ksBytes_msb : decode 0b10000000000000000000000000000100 = .ok (.ksBytes 8388608) := by decide
theorem test_decode_authStreams : decode 0b00000000000000000000010000000101 = .ok (.authStreams 4) := by decide
theorem test_decode_accBytes : decode 0b00000000000000000000000000000110 = .ok .accBytes := by decide
theorem test_decode_srBytes : decode 0b00000000000000000000000000000111 = .ok .srBytes := by decide
theorem test_decode_status : decode 0b00000000000000000000000000001000 = .ok .status := by decide
/-- V-E1 to V-E3: the opcode check comes first. -/
theorem test_decode_reservedOpcode :
    [0x00000000, 0x00000009, 0x0000000F, 0x000000F0].map decode = List.replicate 4 (.error .reservedOpcode) := by decide
/-- V-E4. -/
theorem test_decode_reservedBits : [0x00000014, 0x00000018].map decode = List.replicate 2 (.error .reservedBits) := by
  decide
/-- V-E5. -/
theorem test_decode_countNotAllowed :
    [0x00000101, 0x01000006].map decode = List.replicate 2 (.error .countNotAllowed) := by decide
/-- V-E7. -/
theorem test_decode_largest_counts :
    decodeTableWord 32 0xFFFFFF04 = some (.ksBytes 16777215) ∧
    decodeTableWord 32 0xFFFFFF05 = some (.authStreams 16777215) := by decide

/-! ### The assembler (R79) -/

theorem test_assemble_create : assemble ["create".toList, "ks_bytes 0x10 ; plain".toList] = some [1, 2, 0x1004] := by
  decide
theorem test_assemble_rejects :
    [assembleLine "ks_bytes 16777216".toList, assembleLine "init 0".toList, assembleLine "ks_bytes".toList,
     assembleLine "INIT".toList, assembleLine "auth_streams 0x".toList, assembleLine "reset".toList] =
      List.replicate 6 none := by decide

/-! ### The datapath -/

/-- V-L2, V-L3, V-L4, V-L5. -/
theorem test_linearFeedback :
    linearFeedback (BitVec.allOnes 128) = false ∧
    (∀ p ∈ [31, 46, 57, 89, 120, 127], linearFeedback (BitVec.twoPow 128 p) = true) ∧
    (∀ p ∈ [0, 32], linearFeedback (BitVec.twoPow 128 p) = false) ∧
    linearFeedback 0x800000000000000000000000FFFFFFFE = false := by decide

/-- V-N2 to V-N12: a register with just the listed bits, and the feedback it gives. -/
theorem test_nonlinearFeedback :
    nonlinearFeedback (BitVec.allOnes 128) = true ∧
    (∀ ps ∈ [[31], [36], [71], [101], [127], [43, 59], [60, 124], [62, 66], [68, 100], [79, 87], [109, 110],
        [114, 116], [45, 49, 57], [102, 103, 105], [32, 34, 35, 39], [59, 60, 124]],
      nonlinearFeedback (ps.foldr (fun p N => BitVec.twoPow 128 p ||| N) 0) = true) ∧
    (∀ ps ∈ [[43], [60], [62], [68], [79], [109], [114], [45, 49], [102, 103], [32, 34, 35], [31, 43, 59],
        [43, 59, 60, 124]],
      nonlinearFeedback (ps.foldr (fun p N => BitVec.twoPow 128 p ||| N) 0) = false) := by decide

/-- V-S1, V-S2, V-S3. -/
theorem test_shift :
    shift 0x80000000000000000000000000000001 false = (true, 0x00000000000000000000000000000002) ∧
    shift 0x40000000000000000000000000000000 true = (false, 0x80000000000000000000000000000001) ∧
    shift (BitVec.allOnes 128) false = (true, 0xFFFFFFFFFFFFFFFFFFFFFFFFFFFFFFFE) := by decide

/-- V-H11, V-H12, V-H13. -/
theorem test_filter :
    filter (BitVec.twoPow 128 119) (BitVec.twoPow 128 115) = true ∧
    filter (BitVec.twoPow 128 33) (BitVec.twoPow 128 115 ||| BitVec.twoPow 128 32) = true ∧
    filter (BitVec.twoPow 128 33 ||| BitVec.twoPow 128 85) (BitVec.twoPow 128 115 ||| BitVec.twoPow 128 32) = false := by
  decide

/-- An engine with the given shift registers and phase, the rest as after INIT. -/
def engineOf (l n : Reg128) (diffusing : Bool) : Engine :=
  { lfsr := l, nfsr := n, acc := 0, sreg := 0, diffusing := diffusing, auth := true, mode := .none, initd := true,
    diffused := !diffusing, pop := false, pv := false }

/-- V-R1, V-R4, V-R6: diffusion clocking. -/
theorem test_round_diffusing :
    (engineOf 0x800000000000000000000000FFFFFFFE 0 true).round =
      (false, engineOf 0x000000000000000000000001FFFFFFFC 1 true) ∧
    (engineOf (BitVec.twoPow 128 34) 0 true).round = (true, engineOf 0x00000000000000000000000800000001 1 true) ∧
    (engineOf (BitVec.twoPow 128 34 ||| BitVec.twoPow 128 127) 0 true).round =
      (true, engineOf 0x00000000000000000000000800000000 0 true) := by decide

/-- V-R3, V-R5, V-R7: running clocking. -/
theorem test_round_running :
    (engineOf (BitVec.allOnes 128) (BitVec.allOnes 128) false).round =
      (true, engineOf 0xFFFFFFFFFFFFFFFFFFFFFFFFFFFFFFFE 0xFFFFFFFFFFFFFFFFFFFFFFFFFFFFFFFE false) ∧
    (engineOf (BitVec.twoPow 128 34) 0 false).round = (true, engineOf 0x00000000000000000000000800000000 0 false) ∧
    (engineOf (BitVec.twoPow 128 34 ||| BitVec.twoPow 128 127) 0 false).round =
      (true, engineOf 0x00000000000000000000000800000001 1 false) := by decide

/-- V-R8. -/
theorem test_eight_diffusion_rounds :
    (engineOf 0x800000000000000000000000FFFFFFFE 0 true).rounds 8 =
      ([false, false, false, true, true, true, true, true],
        engineOf 0x0000000000000000000000FFFFFFFE60 0x0000000000000000000000000000009F true) := by decide +kernel

/-! ### The commands, each one step on a small state -/

/-- A state with the given engine and inputs, nothing answered yet. -/
def stateOf (e : Engine) (inputs : List HostInput) : State :=
  { engine := e, inputs := inputs, responses := [], draw := { stream := 0, next := 1 } }

/-- The engine and the last response after a step. -/
def after (o : StepOutcome) : Option (Engine × Option Resp) :=
  match o with
  | .next t => some (t.engine, t.responses.getLast?)
  | .fault _ => none
  | .refused _ => none

/-- The last response after a step. -/
def lastResp (o : StepOutcome) : Option Resp := (after o).bind Prod.snd

/-- An OK response (R170). -/
def okResp (word : Word) (out0 out1 : List Byte) : Resp :=
  { st := .ok, cause := .none, word := word, out0 := out0, out1 := out1 }

/-- A PRECONDITION_VIOLATION response (R213). -/
def pvResp (c : PreconditionCause) : Resp :=
  { st := .preconditionViolation, cause := .precondition c, word := 0, out0 := [], out1 := [] }

/-- An engine on which INIT has not run. -/
def rawEngine : Engine := { engineOf 5 6 false with auth := false, initd := false, diffused := false, acc := 7, sreg := 8 }

/-- The engine after INIT (R150). -/
def initEngine : Engine := engineOf 0x800000000000000000000000FFFFFFFE 0 true

/-- An engine latched in PLAIN. -/
def plainEngine : Engine := { createdEngine with mode := .plain }

/-- An engine latched in AUTH, with ACC and SREG as V-A1 gives them. -/
def authEngine : Engine := { createdEngine with mode := .auth, pop := true, acc := 0x446CD26A, sreg := 0xC709BD98 }

/-- A diffused engine whose auth flag is 0 (95_test_vectors.md: NOT_AUTH needs another pattern). -/
def noAuthEngine : Engine := { createdEngine with auth := false }

/-- V-I1. -/
theorem test_init : after (step (stateOf rawEngine [.word 1])) = some (initEngine, some (okResp 0 [] [])) := by decide

/-- V-D1: 256 rounds. -/
theorem test_diffuse : after (step (stateOf initEngine [.word 2])) = some (createdEngine, some (okResp 0 [] [])) := by
  decide +kernel

/-- V-Q2. -/
theorem test_isAuth : lastResp (step (stateOf initEngine [.word 3])) = some (okResp 1 [] []) := by decide

/-- V-K2: three bytes, and the registers after 24 rounds. -/
theorem test_ksBytes :
    after (step (stateOf createdEngine [.word 0x304])) =
      some ({ createdEngine with lfsr := 0xF997EBC74883A7E1384513C974CD3D66, nfsr := 0x5281D33CB9444720688B0A3A7AAE5861,
                                 mode := .plain }, some (okResp 0 [0x56, 0x4B, 0x36] [])) := by decide +kernel

/-- V-K4: no byte, PLAIN latched. -/
theorem test_ksBytes_zero :
    after (step (stateOf createdEngine [.word 0x004])) = some (plainEngine, some (okResp 0 [] [])) := by decide

/-- V-A1. -/
theorem test_authStreams :
    after (step (stateOf createdEngine [.word 0x405])) =
      some ({ createdEngine with lfsr := 0xCD3D665090D68C01078B19A1A984F1C0, nfsr := 0xAE586116C974F65679319E0CDD07B0BE,
                                 acc := 0x446CD26A, sreg := 0xC709BD98, mode := .auth, pop := true },
        some (okResp 0 [0x0D, 0x2B, 0x1F, 0x2E] [0x1C, 0xDB, 0xC7, 0xF1])) := by decide +kernel

/-- V-A3 and the end state of program P5: 80 rounds, the first 64 of which populate. -/
theorem test_authStreams_one :
    after (step (stateOf createdEngine [.word 0x105])) =
      some ({ authEngine with lfsr := 0xE1384513C974CD3D665090D68C01078B, nfsr := 0x20688B0A3A7AAE586116C974F6567931 },
        some (okResp 0 [0x0D] [0x1C])) := by decide +kernel

/-- V-A2. -/
theorem test_accBytes :
    after (step (stateOf authEngine [.word 6])) = some (authEngine, some (okResp 0 [0x56, 0x4B, 0x36, 0x22] [])) := by
  decide

/-- V-A2. -/
theorem test_srBytes :
    after (step (stateOf authEngine [.word 7])) = some (authEngine, some (okResp 0 [0x19, 0xBD, 0x90, 0xE3] [])) := by
  decide

/-- V-Q1, and the status words of programs P1 to P3. -/
theorem test_status :
    lastResp (step (State.reset.withFetchWord 32 8)) = some (okResp 0 [] []) ∧
    [initEngine, createdEngine, plainEngine, authEngine, { plainEngine with pv := true }].map statusWord =
      [0x0000000D, 0x0000000B, 0x0000001B, 0x0000006B, 0x0000009B] := by decide

/-! ### Errors: the response, and nothing written but PV -/

/-- V-Q3, V-D4 and program P3: NOT_INIT from a raw engine, whatever the command. -/
theorem test_notInit :
    [2, 3, 0x104, 0x105, 6, 7].map (fun w => after (step (stateOf rawEngine [.word w]))) =
      List.replicate 6 (some ({ rawEngine with pv := true }, some (pvResp .notInit))) := by decide

/-- V-Q8 and program P3. -/
theorem test_notDiffused :
    [0x104, 0x105, 6, 7].map (fun w => after (step (stateOf initEngine [.word w]))) =
      List.replicate 4 (some ({ initEngine with pv := true }, some (pvResp .notDiffused))) := by decide

/-- V-D3. -/
theorem test_alreadyDiffused :
    after (step (stateOf createdEngine [.word 2])) =
      some ({ createdEngine with pv := true }, some (pvResp .alreadyDiffused)) := by decide

/-- R215: NOT_AUTH comes before MODE_CONFLICT and NOT_POPULATED. -/
theorem test_notAuth :
    [0x105, 6, 7].map (fun w => lastResp (step (stateOf { noAuthEngine with mode := .plain } [.word w]))) =
      List.replicate 3 (some (pvResp .notAuth)) := by decide

/-- V-Q4, V-Q5. -/
theorem test_modeConflict :
    lastResp (step (stateOf plainEngine [.word 0x105])) = some (pvResp .modeConflict) ∧
    lastResp (step (stateOf authEngine [.word 0x104])) = some (pvResp .modeConflict) := by decide

/-- V-Q6, V-Q7. -/
theorem test_notPopulated :
    [6, 7].map (fun w => lastResp (step (stateOf plainEngine [.word w]))) =
      List.replicate 2 (some (pvResp .notPopulated)) := by decide

/-- R211, R212, R72: the codes. -/
theorem test_codes :
    [PreconditionCause.notInit, .notDiffused, .alreadyDiffused, .notAuth, .modeConflict, .notPopulated].map
      PreconditionCause.code = [0x1, 0x2, 0x3, 0x4, 0x5, 0x6] ∧
    [IllegalCause.reservedOpcode, .reservedBits, .countNotAllowed].map illegalCode = [0x8, 0x9, 0xA] ∧
    [RespStatus.ok, .preconditionViolation, .illegalCommand].map RespStatus.code = [0, 1, 2] := by decide

/-- R245: rounds per command. -/
theorem test_roundsUsed :
    [Instr.diffuse, .ksBytes 3, .authStreams 4].map (roundsUsed initEngine) = [256, 0, 0] ∧
    [Instr.diffuse, .ksBytes 3, .authStreams 4].map (roundsUsed createdEngine) = [0, 24, 128] ∧
    [Instr.ksBytes 3, .authStreams 4].map (roundsUsed authEngine) = [0, 64] := by decide

/-! ### Witnesses: every statement with hypotheses has a case that meets them -/

theorem witness_decode_clauses :
    ((0x9 : Word).toNat % 16 = 9 ∧ (0x18 : Word).toNat % 16 ≤ 8 ∧ (0x18 : Word).toNat / 16 % 16 ≠ 0) ∧
    ((0x01000006 : Word).toNat % 16 = 6 ∧ (0x01000006 : Word).toNat / 16 % 16 = 0 ∧
      (0x01000006 : Word).toNat / 256 ≠ 0) := by decide

theorem witness_roundTrips :
    (Instr.authStreams 16777215).wellFormed = true ∧ decode 0xFFFFFF05 = .ok (.authStreams 16777215) := by decide

/-- The hypotheses of each clause about source lines: counts at the ends of the range, a token that is no numeral, an operand
after a count-less mnemonic, an unknown mnemonic, and an accepted line. -/
theorem witness_assembled :
    ((∀ d ∈ [1, 6, 7, 7, 7, 2, 1, 5], d < 10) ∧ numeralValue 10 [1, 6, 7, 7, 7, 2, 1, 5] = 16777215 ∧
      numeralValue 10 [1, 6, 7, 7, 7, 2, 1, 6] = 16777216) ∧
    ((∀ d ∈ [15, 15, 15, 15, 15, 15], d < 16) ∧ numeral [1, 15] = ['1', 'f'] ∧
      numeralValue 16 [15, 15, 15, 15, 15, 15] = 16777215) ∧
    ((∀ c ∈ ['0', 'x', 'F'], IsTokenChar c) ∧ assembleLine ("ks_bytes".toList ++ [' ', '0', 'x', 'F']) = some [0xF04]) ∧
    IsTokenChar '0' ∧
    ((∀ c ∈ "INIT".toList, IsTokenChar c) ∧ "INIT".toList ∉ ["init", "diffuse"].map String.toList) ∧
    assembleLine "create".toList = some [1, 2] :=
  ⟨⟨by decide, by decide +kernel, by decide +kernel⟩, ⟨by decide, by decide, by decide +kernel⟩,
    ⟨by simp [IsTokenChar], by decide⟩, by decide, ⟨by simp [IsTokenChar], by decide⟩, by decide⟩

theorem witness_step_inputs :
    (stateOf initEngine [.word 2, .reset]).inputs = .word 2 :: [.reset] ∧ decode 2 = .ok .diffuse ∧
    (stateOf initEngine [.word 0x14]).inputs = .word 0x14 :: [] ∧ decode 0x14 = .error .reservedBits ∧
    (stateOf initEngine []).inputs = [] ∧ (stateOf initEngine [.reset]).inputs = .reset :: [] ∧
    (stateOf initEngine [.word 2, .reset]).inputs = [.word 2] ++ [.reset] := by decide

/-- The hypotheses of each clause about DIFFUSE, KS_BYTES, AUTH_STREAMS, IS_AUTH, ACC_BYTES and SR_BYTES. -/
theorem witness_command_clauses :
    rawEngine.initd = false ∧
    (initEngine.initd = true ∧ initEngine.diffused = false ∧ initEngine.pv = false) ∧
    (createdEngine.initd = true ∧ createdEngine.diffused = true ∧ createdEngine.auth = true ∧
      createdEngine.mode = .none ∧ createdEngine.pop = false) ∧
    (noAuthEngine.initd = true ∧ noAuthEngine.diffused = true ∧ noAuthEngine.auth = false) ∧
    (plainEngine.initd = true ∧ plainEngine.diffused = true ∧ plainEngine.auth = true ∧ plainEngine.mode = .plain) ∧
    (authEngine.initd = true ∧ authEngine.diffused = true ∧ authEngine.auth = true ∧ authEngine.mode = .auth ∧
      authEngine.pop = true) := by decide

theorem witness_created : (stateOf createdEngine []).engine = createdEngine := rfl

theorem witness_filter_inputs :
    (BitVec.twoPow 128 115).getLsbD 115 = (0b000000011 : BitVec 9).getLsbD 0 ∧
    (BitVec.twoPow 128 119).getLsbD 119 = (0b000000011 : BitVec 9).getLsbD 1 ∧
    (BitVec.twoPow 128 119).getLsbD 114 = (0b000000011 : BitVec 9).getLsbD 2 ∧
    (BitVec.twoPow 128 119).getLsbD 107 = (0b000000011 : BitVec 9).getLsbD 3 ∧
    (BitVec.twoPow 128 115).getLsbD 32 = (0b000000011 : BitVec 9).getLsbD 4 ∧
    (BitVec.twoPow 128 119).getLsbD 85 = (0b000000011 : BitVec 9).getLsbD 5 ∧
    (BitVec.twoPow 128 119).getLsbD 67 = (0b000000011 : BitVec 9).getLsbD 6 ∧
    (BitVec.twoPow 128 119).getLsbD 48 = (0b000000011 : BitVec 9).getLsbD 7 ∧
    (BitVec.twoPow 128 119).getLsbD 33 = (0b000000011 : BitVec 9).getLsbD 8 := by decide

/-- Two registers that agree on the 29 positions and differ elsewhere. -/
theorem witness_nonlinear_agree :
    (∀ p ∈ [31, 36, 71, 101, 127, 43, 59, 60, 124, 62, 66, 68, 100, 79, 87, 109, 110, 114, 116, 45, 49, 57, 102, 103,
      105, 32, 34, 35, 39], (0 : Reg128).getLsbD p = (1 : Reg128).getLsbD p) ∧ (0 : Reg128) ≠ 1 := by decide

theorem witness_phases : initEngine.diffusing = true ∧ createdEngine.diffusing = false := by decide

theorem witness_invariants :
    rawEngine.Inv ∧ initEngine.Inv ∧ createdEngine.Inv ∧ plainEngine.Inv ∧ authEngine.Inv :=
  ⟨by decide, by decide, by decide, by decide, by decide⟩

theorem witness_invariant_step : ∃ t, (stateOf createdEngine [.word 4]).engine.Inv ∧
    step (stateOf createdEngine [.word 4]) = .next t := ⟨_, by decide, rfl⟩

theorem witness_reachable : ∃ t, Host.Core.run Sys2Proof.core 1 ({ State.reset with inputs := [.word 8] } : State) =
    .next t := ⟨_, rfl⟩

/-- An erroneous word, its step and its response. -/
theorem witness_error : ∃ t r, step (stateOf plainEngine [.word 0x105]) = .next t ∧
    t.responses = (stateOf plainEngine [.word 0x105]).responses ++ [r] ∧ r.st ≠ .ok := ⟨_, _, rfl, rfl, by decide⟩

/-- A step that clears `pv`, and a clean run of a word. -/
theorem witness_pv :
    (∃ t, step (stateOf { plainEngine with pv := true } [.reset]) = .next t ∧ t.engine.pv = false) ∧
    (∃ t, HostInput.reset ∉ (stateOf plainEngine [.word 8]).inputs ∧
      Host.Core.run Sys2Proof.core 1 (stateOf plainEngine [.word 8]) = .next t ∧ t.Clean) :=
  ⟨⟨_, rfl, rfl⟩, ⟨_, by decide, rfl, rfl⟩⟩

/-- A step out of the diffusion phase: DIFFUSE, and a hardware reset. -/
theorem witness_phase_ends :
    (∃ t, step (stateOf initEngine [.word 2]) = .next t ∧ initEngine.diffusing = true ∧ t.engine.diffusing = false) ∧
    (∃ t, step (stateOf initEngine [.reset]) = .next t ∧ t.engine.diffusing = false) :=
  ⟨⟨_, rfl, rfl, rfl⟩, ⟨_, rfl, rfl⟩⟩

/-- Commands with their responses, one for each row of the mode table. -/
theorem witness_mode_rows :
    (∃ t r, exec .init (stateOf plainEngine []) = .next t ∧ t.responses = [] ++ [r] ∧ r.st = .ok) ∧
    (∃ t r, exec (.ksBytes 0) (stateOf createdEngine []) = .next t ∧ t.responses = [] ++ [r] ∧ r.st = .ok) ∧
    (∃ t r, exec (.authStreams 0) (stateOf authEngine []) = .next t ∧ t.responses = [] ++ [r] ∧ r.st = .ok) ∧
    (∃ t r, exec (.authStreams 0) (stateOf plainEngine []) = .next t ∧ t.responses = [] ++ [r] ∧ r.st ≠ .ok) ∧
    (∃ t r, exec (.ksBytes 0) (stateOf authEngine []) = .next t ∧ t.responses = [] ++ [r] ∧ r.st ≠ .ok) ∧
    (∃ t r, exec (.ksBytes 0) (stateOf initEngine []) = .next t ∧ t.responses = [] ++ [r] ∧ r.st ≠ .ok) ∧
    (∃ t r, exec .status (stateOf authEngine []) = .next t ∧ t.responses = [] ++ [r] ∧ r.st = .ok) :=
  ⟨⟨_, _, rfl, rfl, rfl⟩, ⟨_, _, rfl, rfl, rfl⟩, ⟨_, _, rfl, rfl, rfl⟩, ⟨_, _, rfl, rfl, by decide⟩,
    ⟨_, _, rfl, rfl, by decide⟩, ⟨_, _, rfl, rfl, by decide⟩, ⟨_, _, rfl, rfl, rfl⟩⟩

/-- A command that changes the phase flag, and one that changes the mode latch only. -/
theorem witness_flag_writers :
    (∃ t, exec .init (stateOf createdEngine []) = .next t ∧ t.engine.diffusing ≠ createdEngine.diffusing ∧
      t.engine.diffused ≠ createdEngine.diffused) ∧
    (∃ t, exec .init (stateOf rawEngine []) = .next t ∧ t.engine.auth ≠ rawEngine.auth ∧
      t.engine.initd ≠ rawEngine.initd ∧ t.engine.lfsr ≠ rawEngine.lfsr) ∧
    (∃ t, exec .init (stateOf authEngine []) = .next t ∧ t.engine.pop ≠ authEngine.pop ∧
      t.engine.acc ≠ authEngine.acc) :=
  ⟨⟨_, rfl, by decide⟩, ⟨_, rfl, by decide⟩, ⟨_, rfl, by decide⟩⟩

/-- A query that succeeds. -/
theorem witness_query : ∃ t r, exec .accBytes (stateOf authEngine []) = .next t ∧
    t.responses = (stateOf authEngine []).responses ++ [r] ∧ r.st = .ok := ⟨_, _, rfl, rfl, rfl⟩

/-- A command with rounds and one answered with an error. -/
theorem witness_rounds :
    (∃ t r, exec (.ksBytes 1) (stateOf createdEngine []) = .next t ∧ t.responses = [] ++ [r] ∧ r.st = .ok) ∧
    (∃ t r, exec (.ksBytes 1) (stateOf authEngine []) = .next t ∧ t.responses = [] ++ [r] ∧ r.st ≠ .ok) :=
  ⟨⟨_, _, rfl, rfl, rfl⟩, ⟨_, _, rfl, rfl, by decide⟩⟩

/-- Inputs that create and then extract, on two engines that differ. -/
theorem witness_create_inputs :
    (stateOf rawEngine [.word 1, .word 2, .word 0x104]).inputs = .word 1 :: .word 2 :: [0x104].map .word ∧
    (stateOf authEngine [.word 1, .word 2, .word 0x104]).inputs = .word 1 :: .word 2 :: [0x104].map .word := by decide

/-- Two uninitialised engines with different registers and equal flags. -/
theorem witness_uninitialised :
    rawEngine.initd = false ∧ ({ rawEngine with lfsr := 0, nfsr := 1, acc := 2, sreg := 3 } : Engine).SameFlags rawEngine ∧
    ({ rawEngine with lfsr := 0, nfsr := 1, acc := 2, sreg := 3 } : Engine) ≠ rawEngine := by decide

/-- Two such states, alike until INIT, and their steps. -/
theorem witness_alike : ∃ t t',
    (stateOf rawEngine [.word 1]).AlikeUntilInit (stateOf { rawEngine with lfsr := 0, nfsr := 1 } [.word 1]) ∧
    step (stateOf rawEngine [.word 1]) = .next t ∧
    step (stateOf { rawEngine with lfsr := 0, nfsr := 1 } [.word 1]) = .next t' :=
  ⟨_, _, by decide, rfl, rfl⟩

/-- A platform of three instances has an instance 2. -/
theorem witness_platform : (Platform.reset 3).instances[2]? = some (State.afterReset 2) := rfl

end Sys2Proof.Tests
end

section
/-!
PROOFS. The state invariants (10_state.md R32): each command keeps them, so each step and each run from reset does.
-/

namespace Sys2Proof.Machine

/-- Only INIT and STATUS pass their checks on an engine that is not initialised (R211, R241). -/
theorem checks_pass_uninitialised {i : Instr} {e : Engine} (hp : firstFailure (checksOf e i) = none)
    (he : e.initd = false) : i = .init ∨ i = .status := by
  rw [firstFailure_eq_none] at hp
  cases i with
  | init => exact .inl rfl
  | status => exact .inr rfl
  | diffuse | isAuth | ksBytes | authStreams | accBytes | srBytes =>
    have := hp (!e.initd, .notInit) (List.mem_cons_self ..)
    simp [he] at this

/-- DIFFUSE passes its checks on an initialised engine that is not diffused (R153). -/
theorem diffuseChecks_pass {e : Engine} :
    firstFailure (diffuseChecks e) = none ↔ e.initd = true ∧ e.diffused = false := by
  simp [firstFailure_eq_none, diffuseChecks]

/-- KS_BYTES passes its checks on a diffused engine that is not latched in AUTH (R175). -/
theorem ksBytesChecks_pass {e : Engine} :
    firstFailure (ksBytesChecks e) = none ↔ e.initd = true ∧ e.diffused = true ∧ e.mode ≠ .auth := by
  simp [firstFailure_eq_none, ksBytesChecks]

/-- AUTH_STREAMS passes its checks on a diffused engine with the auth flag that is not latched in PLAIN (R180). -/
theorem authStreamsChecks_pass {e : Engine} :
    firstFailure (authStreamsChecks e) = none ↔
      e.initd = true ∧ e.diffused = true ∧ e.auth = true ∧ e.mode ≠ .plain := by
  simp [firstFailure_eq_none, authStreamsChecks]

/-- INIT writes every field but `pv`; the auth flag it computes from its pattern is 1 (R150, R152). -/
theorem initEffect_eq (e : Engine) :
    initEffect e =
      ({ lfsr := initLfsr, nfsr := 0, acc := 0, sreg := 0, diffusing := true, auth := true, mode := .none,
         initd := true, diffused := false, pop := false, pv := e.pv }, Reply.empty) := by
  have hauth : initLfsr[127] = true := by decide
  simp only [initEffect, hauth]

/-- What an AUTH_STREAMS leaves, populated before or not (R180, R181). -/
theorem authStreamsEffect_flags (n : Nat) (e : Engine) :
    (authStreamsEffect n e).1.diffusing = e.diffusing ∧ (authStreamsEffect n e).1.auth = e.auth ∧
    (authStreamsEffect n e).1.mode = .auth ∧ (authStreamsEffect n e).1.initd = e.initd ∧
    (authStreamsEffect n e).1.diffused = e.diffused ∧ (authStreamsEffect n e).1.pop = true ∧
    (authStreamsEffect n e).1.pv = e.pv := by
  cases hpop : e.pop with
  | true => simp [authStreamsEffect_later n hpop, hpop]
  | false => simp [authStreamsEffect_first n hpop]

/-- A command that passes its checks keeps the invariants. -/
theorem effectOf_inv {i : Instr} {e : Engine} (hp : firstFailure (checksOf e i) = none) (hinv : e.Inv) :
    (effectOf i e).1.Inv := by
  have ⟨hraw, hphase, hlatched, hpop, hauth, hregs⟩ := hinv
  cases i with
  | isAuth | accBytes | srBytes | status => exact hinv
  | init => simp [Engine.Inv, effectOf, initEffect_eq]
  | diffuse =>
    obtain ⟨hi, -⟩ := diffuseChecks_pass.1 hp
    simp only [Engine.Inv, effectOf, diffuseEffect_eq, hi]
    exact ⟨by simp, by simp, by simp, hpop, hauth, fun h _ => hregs h hi⟩
  | ksBytes n =>
    obtain ⟨hi, hd, hm⟩ := ksBytesChecks_pass.1 hp
    have hunpop : e.pop = false := Bool.eq_false_iff.2 (mt hpop.1 hm)
    simp [Engine.Inv, effectOf, ksBytesEffect_eq, hi, hd, hunpop, hphase hi, hregs hunpop hi]
  | authStreams n =>
    obtain ⟨hi, hd, ha, -⟩ := authStreamsChecks_pass.1 hp
    obtain ⟨fdiffusing, fauth, fmode, finitd, fdiffused, fpop, -⟩ := authStreamsEffect_flags n e
    simp [Engine.Inv, effectOf, fdiffusing, fauth, fmode, finitd, fdiffused, fpop, hi, hd, ha, hphase hi]

/-- The engine after a hardware reset has the invariants, whatever its registers hold (R37). -/
theorem Engine.afterReset_inv (d : DrawCursor) : (Engine.afterReset d).Inv := by
  obtain ⟨hdiffusing, -, hmode, hinitd, hdiffused, hpop, -⟩ := afterReset_flags d
  simp [Engine.Inv, hdiffusing, hmode, hinitd, hdiffused, hpop]

/-- Raising an error keeps the invariants: none of them speaks of `pv` (R213). -/
theorem State.raise_inv {s : State} (c : Cause) (hinv : s.engine.Inv) : (s.raise c).engine.Inv := hinv

/-- A command keeps the invariants, whether its checks pass or not. -/
theorem exec_inv {i : Instr} {s t : State} (hinv : s.engine.Inv) (h : exec i s = .next t) : t.engine.Inv := by
  obtain ⟨c, -, rfl⟩ | ⟨hp, rfl⟩ := exec_cases h
  · exact State.raise_inv _ hinv
  · exact effectOf_inv hp hinv

/-- Settles O31: a step is idle, a hardware reset, an error or a command, and each keeps the invariants. -/
theorem everyStepKeepsTheInvariants : Obligations.EveryStepKeepsTheInvariants := by
  intro s t hinv h
  obtain ⟨-, rfl⟩ | ⟨rest, -, rfl⟩ | ⟨w, rest, c, -, -, rfl⟩ | ⟨w, rest, i, -, -, h⟩ := step_cases h
  · exact hinv
  · exact Engine.afterReset_inv _
  · exact State.raise_inv _ hinv
  · exact exec_inv (s := { s with inputs := rest }) hinv h

/-- Settles O32: the flags after reset are all clear. -/
theorem resetHasTheInvariants : Obligations.ResetHasTheInvariants := Engine.afterReset_inv _

/-- Settles O33: they hold at reset, and every step keeps them. -/
theorem reachableStatesHaveTheInvariants : Obligations.ReachableStatesHaveTheInvariants := by
  intro inputs k t h
  exact run_keeps (P := fun s => s.engine.Inv) everyStepKeepsTheInvariants k
    { State.reset with inputs := inputs } t resetHasTheInvariants h

end Sys2Proof.Machine
end

section
/-!
PROOFS. What the registers hold before INIT is unobservable (10_state.md R37): two states that are alike but for registers not
yet initialised stay alike in each step, and so in each run.
-/

namespace Sys2Proof.Machine

/-- An engine has its own flags. -/
theorem Engine.SameFlags.refl (e : Engine) : e.SameFlags e := ⟨rfl, rfl, rfl, rfl, rfl, rfl, rfl⟩

/-- The checks read the flags only (R211). -/
theorem checksOf_congr {e f : Engine} (h : e.SameFlags f) (i : Instr) : checksOf e i = checksOf f i := by
  obtain ⟨-, hauth, hmode, hinitd, hdiffused, hpop, -⟩ := h
  cases i <;>
    simp only [checksOf, initChecks, diffuseChecks, isAuthChecks, ksBytesChecks, authStreamsChecks, accBytesChecks,
      srBytesChecks, statusChecks, hauth, hmode, hinitd, hdiffused, hpop]

/-- The status word reads the flags only (R35). -/
theorem statusWord_congr {e f : Engine} (h : e.SameFlags f) : statusWord e = statusWord f := by
  obtain ⟨hdiffusing, hauth, hmode, hinitd, hdiffused, hpop, hpv⟩ := h
  simp only [statusWord, hdiffusing, hauth, hmode, hinitd, hdiffused, hpop, hpv]

/-- INIT overwrites every field but `pv` (R150). -/
theorem initEffect_congr {e f : Engine} (h : e.pv = f.pv) : initEffect e = initEffect f := by
  simp only [initEffect_eq, h]

/-- Raising an error keeps two states alike. -/
theorem State.AlikeUntilInit.raise {s s' : State} (h : s.AlikeUntilInit s') (c : Cause) :
    (s.raise c).AlikeUntilInit (s'.raise c) := by
  obtain ⟨hin, hresp, hdraw, ⟨hdiffusing, hauth, hmode, hinitd, hdiffused, hpop, -⟩, heq⟩ := h
  exact ⟨hin, congrArg (· ++ [_]) hresp, hdraw, ⟨hdiffusing, hauth, hmode, hinitd, hdiffused, hpop, rfl⟩,
    fun hi => congrArg (fun e : Engine => { e with pv := true }) (heq hi)⟩

/-- Answering with engines alike and one response keeps two states alike. -/
theorem State.AlikeUntilInit.answer {s s' : State} (h : s.AlikeUntilInit s') {e e' : Engine} (hflags : e.SameFlags e')
    (heq : e.initd = true → e = e') (r : Resp) : (s.answer e r).AlikeUntilInit (s'.answer e' r) := by
  obtain ⟨hin, hresp, hdraw, -, -⟩ := h
  exact ⟨hin, congrArg (· ++ [r]) hresp, hdraw, hflags, heq⟩

/-- A hardware reset draws the same registers in two states that are alike. -/
theorem State.AlikeUntilInit.hardwareReset {s s' : State} (h : s.AlikeUntilInit s') :
    s.hardwareReset.AlikeUntilInit s'.hardwareReset := by
  obtain ⟨hin, hresp, hdraw, -, -⟩ := h
  have hengine : s.hardwareReset.engine = s'.hardwareReset.engine := congrArg Engine.afterReset hdraw
  exact ⟨hin, hresp, by simp only [State.hardwareReset_draw, hdraw], hengine ▸ .refl _, fun _ => hengine⟩

/-- Taking the same input leaves two states alike. -/
theorem State.AlikeUntilInit.take {s s' : State} (h : s.AlikeUntilInit s') (rest : List HostInput) :
    ({ s with inputs := rest } : State).AlikeUntilInit { s' with inputs := rest } :=
  ⟨rfl, h.2⟩

/-- Alike states are equal once INIT has run. -/
theorem State.AlikeUntilInit.eq {s s' : State} (h : s.AlikeUntilInit s') (hi : s.engine.initd = true) : s = s' := by
  obtain ⟨hin, hresp, hdraw, -, heq⟩ := h
  cases s
  cases s'
  simp_all

/-- A command that passes its checks before INIT answers two alike states alike: it is INIT, which overwrites every register, or
STATUS, which reads none. -/
theorem State.AlikeUntilInit.effect {s s' : State} {i : Instr} (h : s.AlikeUntilInit s') (hi : s.engine.initd = false)
    (hp : firstFailure (checksOf s.engine i) = none) :
    (s.answer (effectOf i s.engine).1 (Resp.ok (effectOf i s.engine).2)).AlikeUntilInit
      (s'.answer (effectOf i s'.engine).1 (Resp.ok (effectOf i s'.engine).2)) := by
  have ⟨_, _, _, hflags, heq⟩ := h
  obtain rfl | rfl := checks_pass_uninitialised hp hi
  · obtain ⟨-, -, -, -, -, -, hpv⟩ := hflags
    simp only [effectOf, ← initEffect_congr hpv]
    exact h.answer (.refl _) (fun _ => rfl) _
  · simp only [effectOf, statusEffect, ← statusWord_congr hflags]
    exact h.answer hflags heq _

/-- A command keeps two states alike. -/
theorem exec_keeps_alike {s s' t t' : State} {i : Instr} (h : s.AlikeUntilInit s')
    (ht : exec i s = .next t) (ht' : exec i s' = .next t') : t.AlikeUntilInit t' := by
  cases hi : s.engine.initd with
  | true =>
    obtain rfl := h.eq hi
    cases ht.symm.trans ht'
    exact ⟨rfl, rfl, rfl, .refl _, fun _ => rfl⟩
  | false =>
    have ⟨_, _, _, hflags, _⟩ := h
    rw [exec_eq_runCommand, ← checksOf_congr hflags i] at ht'
    obtain ⟨c, hc, rfl⟩ | ⟨hp, rfl⟩ := exec_cases ht
    · cases (State.runCommand_error hc _).symm.trans ht'
      exact h.raise _
    · cases (State.runCommand_ok hp _).symm.trans ht'
      exact h.effect hi hp

/-- Settles O49: both states take the same input, and an idle step, a hardware reset, an error and a command each keep them
alike. -/
theorem stepsKeepStatesAlikeUntilInit : Obligations.StepsKeepStatesAlikeUntilInit := by
  intro s s' t t' h ht ht'
  have ⟨hin, _, _, _, _⟩ := h
  obtain ⟨hi, rfl⟩ | ⟨rest, hi, rfl⟩ | ⟨w, rest, c, hi, hd, rfl⟩ | ⟨w, rest, i, hi, hd, hx⟩ := step_cases ht
  · cases (step_idle (hin.symm.trans hi)).symm.trans ht'
    exact h
  · cases (step_reset (hin.symm.trans hi)).symm.trans ht'
    exact (h.take rest).hardwareReset
  · cases (step_illegal (hin.symm.trans hi) hd).symm.trans ht'
    exact (h.take rest).raise _
  · exact exec_keeps_alike (h.take rest) hx ((step_command (hin.symm.trans hi) hd).symm.trans ht')

/-- Runs of equal length keep two states alike. -/
theorem run_keeps_alike {k : Nat} {s s' t t' : State} (h : s.AlikeUntilInit s')
    (ht : Host.Core.run Sys2Proof.core k s = .next t) (ht' : Host.Core.run Sys2Proof.core k s' = .next t') :
    t.AlikeUntilInit t' := by
  induction k generalizing s s' with
  | zero =>
    cases ht
    cases ht'
    exact h
  | succ k ih =>
    obtain ⟨u, hu⟩ := step_next s
    obtain ⟨u', hu'⟩ := step_next s'
    rw [run_succ k hu] at ht
    rw [run_succ k hu'] at ht'
    exact ih (stepsKeepStatesAlikeUntilInit s s' u u' h hu hu') ht ht'

/-- Settles O47: two such states are alike until INIT, and runs keep them so. -/
theorem uninitialisedRegistersAreUnobservable : Obligations.UninitialisedRegistersAreUnobservable := by
  intro k s e hi hflags
  have halike : ({ s with engine := e } : State).AlikeUntilInit s := by
    have ⟨_, _, _, hinitd, _, _, _⟩ := hflags
    exact ⟨rfl, rfl, rfl, hflags, fun he => by simp [hinitd, hi] at he⟩
  obtain ⟨t, ht⟩ := run_next k s
  obtain ⟨t', ht'⟩ := run_next k { s with engine := e }
  obtain ⟨hin, hresp, -, -, -⟩ := run_keeps_alike halike ht' ht
  exact ⟨t, t', ht, ht', hresp.symm, hin.symm⟩

end Sys2Proof.Machine
end

section
/-!
PROOFS. The flags: how the status word shows them (10_state.md R35), which command writes which (R20 to R30), and that `pv` records
every error (R31, 60_exceptions.md R214).
-/

namespace Sys2Proof.Machine

/-- Each bit of the status word (R35). -/
theorem statusWord_getLsbD (e : Engine) :
    (statusWord e).getLsbD 0 = e.initd ∧ (statusWord e).getLsbD 1 = e.diffused ∧
    (statusWord e).getLsbD 2 = e.diffusing ∧ (statusWord e).getLsbD 3 = e.auth ∧
    (statusWord e).getLsbD 4 = e.mode.code.getLsbD 0 ∧ (statusWord e).getLsbD 5 = e.mode.code.getLsbD 1 ∧
    (statusWord e).getLsbD 6 = e.pop ∧ (statusWord e).getLsbD 7 = e.pv := by
  simp only [statusWord, BitVec.getLsbD_setWidth, BitVec.getLsbD_append]
  simp

/-- The status word fits its low 8 bits (R35). -/
theorem statusWord_getLsbD_high (e : Engine) {j : Nat} (hj : 8 ≤ j) : (statusWord e).getLsbD j = false := by
  rw [statusWord, BitVec.getLsbD_setWidth, BitVec.getLsbD_of_ge _ _ hj, Bool.and_false]

/-- Bits 5:4 of the status word are the code of the mode (R35). -/
theorem statusWord_mode (e : Engine) : (statusWord e).toNat / 16 % 4 = e.mode.code.toNat := by
  have hfield : (statusWord e).extractLsb' 4 2 = e.mode.code := by
    obtain ⟨-, -, -, -, h4, h5, -, -⟩ := statusWord_getLsbD e
    apply BitVec.eq_of_getLsbD_eq
    intro j hj
    rw [BitVec.getLsbD_extractLsb']
    interval_cases j
    · simpa using h4
    · simpa using h5
  rw [← hfield, BitVec.extractLsb'_toNat, Nat.shiftRight_eq_div_pow]

/-- Settles O20: the flags bit by bit, the mode as a field. -/
theorem statusWordLayout : Obligations.StatusWordLayout := by
  refine ⟨fun e => ?_, ?_⟩
  · obtain ⟨hinitd, hdiffused, hdiffusing, hauth, -, -, hpop, hpv⟩ := statusWord_getLsbD e
    refine ⟨hinitd, hdiffused, hdiffusing, hauth, ?_, ?_, ?_, hpop, hpv, fun j hj => statusWord_getLsbD_high e hj⟩ <;>
    · intro hm
      rw [statusWord_mode, hm]
      rfl
  · rfl

/-- No effect of a command writes `pv` (R31). -/
@[simp] theorem effectOf_pv (i : Instr) (e : Engine) : (effectOf i e).1.pv = e.pv := by
  cases i with
  | init | isAuth | accBytes | srBytes | status => rfl
  | diffuse => simp [effectOf, diffuseEffect_eq]
  | ksBytes n => simp [effectOf, ksBytesEffect_eq]
  | authStreams n =>
    obtain ⟨-, -, -, -, -, -, hpv⟩ := authStreamsEffect_flags n e
    exact hpv

/-- A command gives one response, and sets `pv` just when it is an error (R31, R170). -/
theorem exec_pv {i : Instr} {s t : State} (h : exec i s = .next t) :
    ∃ r, t.responses = s.responses ++ [r] ∧ t.engine.pv = (s.engine.pv || decide (r.st ≠ .ok)) := by
  obtain ⟨c, -, rfl⟩ | ⟨-, rfl⟩ := exec_cases h
  · exact ⟨_, State.raise_responses .., by simp [Cause.st]⟩
  · exact ⟨_, State.answer_responses .., by simp⟩

/-- A step on a command word gives one response, and sets `pv` just when it is an error (R31, R171). -/
theorem step_word_pv {s t : State} {w : Word} {rest : List HostInput} (hi : s.inputs = .word w :: rest)
    (h : step s = .next t) :
    ∃ r, t.responses = s.responses ++ [r] ∧ t.engine.pv = (s.engine.pv || decide (r.st ≠ .ok)) := by
  cases hd : decode w with
  | error c =>
    cases (step_illegal hi hd).symm.trans h
    exact ⟨_, State.raise_responses .., by simp [Cause.st]⟩
  | ok i => exact exec_pv (s := { s with inputs := rest }) ((step_command hi hd).symm.trans h)

/-- A command takes none of the inputs that wait. -/
theorem exec_inputs {i : Instr} {s t : State} (h : exec i s = .next t) : t.inputs = s.inputs := by
  obtain ⟨c, -, rfl⟩ | ⟨-, rfl⟩ := exec_cases h <;> rfl

/-- A step takes the first input, where there is one (R33, R59). -/
theorem step_inputs {s t : State} (h : step s = .next t) : t.inputs = s.inputs.tail := by
  obtain ⟨hi, rfl⟩ | ⟨rest, hi, rfl⟩ | ⟨w, rest, c, hi, -, rfl⟩ | ⟨w, rest, i, hi, -, hx⟩ := step_cases h
  · simp [hi]
  · simp [hi]
  · simp [hi]
  · simp [hi, exec_inputs hx]

/-- A step is idle, a hardware reset, or on a command word, whose one response says whether `pv` is set. -/
theorem step_cases_pv {s t : State} (h : step s = .next t) :
    t = s ∨ (∃ rest, s.inputs = .reset :: rest) ∨
    (∃ r, t.responses = s.responses ++ [r] ∧ t.engine.pv = (s.engine.pv || decide (r.st ≠ .ok))) := by
  rcases hi : s.inputs with _ | ⟨w | _, rest⟩
  · cases (step_idle hi).symm.trans h
    exact .inl rfl
  · exact .inr (.inr (step_word_pv hi h))
  · exact .inr (.inl ⟨rest, rfl⟩)

/-- What a run without resets from `s` to `t` keeps: no reset waits, and if `t` is clean then `s` is and every response since
is OK (R214). -/
def State.CleanSince (s t : State) : Prop :=
  HostInput.reset ∉ t.inputs ∧
    ∃ new : List Resp, t.responses = s.responses ++ new ∧ (t.Clean → s.Clean ∧ ∀ r ∈ new, r.st = .ok)

/-- A run of no step. -/
theorem State.CleanSince.refl {s : State} (hr : HostInput.reset ∉ s.inputs) : s.CleanSince s :=
  ⟨hr, [], by simp, fun hc => ⟨hc, by simp⟩⟩

/-- A run of one step more: `pv` is 0 after the step only if it was before and the response is OK. -/
theorem step_keeps_cleanSince {s u t : State} (hu : s.CleanSince u) (h : step u = .next t) : s.CleanSince t := by
  obtain ⟨hr, new, hnew, hclean⟩ := hu
  refine ⟨step_inputs h ▸ fun hm => hr (List.mem_of_mem_tail hm), ?_⟩
  obtain rfl | ⟨rest, hi⟩ | ⟨r, hresp, hpv⟩ := step_cases_pv h
  · exact ⟨new, hnew, hclean⟩
  · simp [hi] at hr
  · refine ⟨new ++ [r], by rw [hresp, hnew, List.append_assoc], fun hc => ?_⟩
    obtain ⟨huc, hok⟩ : u.Clean ∧ r.st = .ok := by simpa [State.Clean, hpv] using hc
    obtain ⟨hsc, hall⟩ := hclean huc
    exact ⟨hsc, List.forall_mem_append.2 ⟨hall, by simpa using hok⟩⟩

/-- Settles O35: `pv` in a step on a word, in any step, in the status word, and in a run without resets. -/
theorem pvRecordsEveryError : Obligations.PvRecordsEveryError := by
  refine ⟨fun s t w rest r hi h hr => ?_, fun s t h hs ht => ?_, fun s => ?_, fun k s t hr h hc => ?_⟩
  · obtain ⟨r', hr', hpv⟩ := step_word_pv hi h
    obtain rfl : r' = r := by simpa [hr'] using hr
    exact hpv
  · obtain rfl | hreset | ⟨r, -, hpv⟩ := step_cases_pv h
    · simp [hs] at ht
    · exact hreset
    · simp [hs, ht] at hpv
  · obtain ⟨-, -, -, -, -, -, -, hpv⟩ := statusWord_getLsbD s.engine
    exact hpv
  · obtain ⟨-, new, hnew, hclean⟩ := run_keeps (fun _ _ => step_keeps_cleanSince) k s t (.refl hr) h
    obtain ⟨hsc, hall⟩ := hclean hc
    exact ⟨hsc, new, hnew, hall⟩

/-- Settles O39: an error writes `pv` only; for each command, what its effect writes. -/
theorem flagsHaveTheirWritersOnly : Obligations.FlagsHaveTheirWritersOnly := by
  intro i s t h
  obtain ⟨c, -, rfl⟩ | ⟨-, rfl⟩ := exec_cases h
  · simp
  · rw [State.answer_engine]
    cases i with
    | isAuth | accBytes | srBytes | status => simp [effectOf, isAuthEffect, accBytesEffect, srBytesEffect, statusEffect]
    | init => simp [effectOf, initEffect_eq]
    | diffuse => simp [effectOf, diffuseEffect_eq]
    | ksBytes n => simp [effectOf, ksBytesEffect_eq]
    | authStreams n =>
      cases hpop : s.engine.pop with
      | true => simp [effectOf, authStreamsEffect_later n hpop, hpop]
      | false => simp [effectOf, authStreamsEffect_first n hpop]

end Sys2Proof.Machine
end

section
/-!
PROOFS. Bytes in memory order: a packed byte as a number (20_memory.md R54), and that the two registers AUTH_STREAMS fills are read
out as the first plain bytes (R55; 43_extraction.md R181, R191, R192).
-/

namespace Sys2Proof.Machine

/-- A bit appended at weight 0 doubles the number and adds the bit. -/
theorem append_ofBool_toNat {w : Nat} (x : BitVec w) (b : Bool) : (x ++ BitVec.ofBool b).toNat = x.toNat * 2 + b.toNat :=
  BitVec.toNat_concat x b

/-- Settles O30: each further bit doubles the number packed so far, so the earliest has the greatest weight. -/
theorem bytesArePackedMsbFirst : Obligations.BytesArePackedMsbFirst := by
  intro b start stride
  simp only [packBits, pack8, append_ofBool_toNat, BitVec.toNat_ofBool, List.sum_range_succ,
    List.range_zero, List.map_nil, List.sum_nil, Nat.zero_mul, Nat.one_mul, Nat.add_zero]
  omega

/-- A register whose bits are 32 bits of a sequence is read out as the four bytes packed from them (R55). -/
theorem packRegister_eq_packBits {R : Reg32} {b : Nat → Bool} {start : Nat}
    (h : ∀ i < 32, R.getLsbD i = b (start + i)) :
    packRegister R = (List.range 4).map fun k => packBits b (start + 8 * k) 1 := by
  have hreg : packRegister R = (List.range 4).map fun k => packBits R.getLsbD (8 * k) 1 := rfl
  rw [hreg]
  refine List.map_congr_left fun k hk => packBits_congr fun j hj => ?_
  have hk4 : k < 4 := List.mem_range.1 hk
  rw [h _ (by omega)]
  exact congrArg b (by omega)

/-- Populated registers, ACC then SREG, are read out as the first eight plain bytes (R55, R181). -/
theorem Engine.populate_readout (e : Engine) :
    packRegister e.populate.acc ++ packRegister e.populate.sreg =
      (List.range 8).map fun k => packBits e.outputBit (8 * k) 1 := by
  have hacc : ∀ i < 32, e.populate.acc.getLsbD i = e.outputBit (0 + i) := fun i hi => by
    rw [Nat.zero_add]
    exact (e.populate_bits hi).1
  rw [packRegister_eq_packBits hacc, packRegister_eq_packBits fun i hi => (e.populate_bits hi).2]
  rfl

/-- ACC_BYTES and SR_BYTES check the same (R192), and pass on a populated engine that is diffused and has the auth flag. -/
theorem readoutChecks_pass {e : Engine} (hi : e.initd = true) (hd : e.diffused = true) (ha : e.auth = true)
    (hp : e.pop = true) : firstFailure (accBytesChecks e) = none ∧ firstFailure (srBytesChecks e) = none := by
  simp [firstFailure_eq_none, accBytesChecks, srBytesChecks, hi, hd, ha, hp]

/-- A command that passes its checks has its effect and answers OK (R171). -/
theorem exec_ok {i : Instr} {s : State} (h : firstFailure (checksOf s.engine i) = none) :
    exec i s = .next (s.answer (effectOf i s.engine).1 (Resp.ok (effectOf i s.engine).2)) := by
  rw [exec_eq_runCommand, State.runCommand_ok h]

/-- ACC_BYTES on a populated engine answers ACC, and SR_BYTES answers SREG; neither writes the engine (R191, R192). -/
theorem exec_readout {s : State} (hi : s.engine.initd = true) (hd : s.engine.diffused = true)
    (ha : s.engine.auth = true) (hp : s.engine.pop = true) :
    exec .accBytes s = .next (s.okWith s.engine 0 (packRegister s.engine.acc) []) ∧
    exec .srBytes s = .next (s.okWith s.engine 0 (packRegister s.engine.sreg) []) := by
  obtain ⟨hacc, hsr⟩ := readoutChecks_pass hi hd ha hp
  exact ⟨exec_ok hacc, exec_ok hsr⟩

/-- Settles O44: population stores the first 64 outputs, which are the bits of the first eight plain bytes. -/
theorem readoutIsTheFirstPlainBytes : Obligations.ReadoutIsTheFirstPlainBytes := by
  intro n s hi hd ha hm hpop
  have hks : firstFailure (checksOf s.engine (.ksBytes 8)) = none := ksBytesChecks_pass.2 ⟨hi, hd, by simp [hm]⟩
  have hau : firstFailure (checksOf s.engine (.authStreams n)) = none :=
    authStreamsChecks_pass.2 ⟨hi, hd, ha, by simp [hm]⟩
  obtain ⟨-, fauth, -, finitd, fdiffused, fpop, -⟩ := authStreamsEffect_flags n s.engine
  have hread {a : State} (h : a.engine = (authStreamsEffect n s.engine).1) :=
    exec_readout (s := a) (h ▸ finitd.trans hi) (h ▸ fdiffused.trans hd) (h ▸ fauth.trans ha) (h ▸ fpop)
  refine ⟨_, _, _, _, packRegister (authStreamsEffect n s.engine).1.acc,
    packRegister (authStreamsEffect n s.engine).1.sreg, exec_ok hks, ?_, exec_ok hau, (hread rfl).1, rfl, (hread rfl).2, rfl⟩
  simp only [authStreamsEffect_first n hpop, Engine.populate_readout, effectOf, ksBytesEffect_eq]
  rfl

end Sys2Proof.Machine
end

section
/-!
PROOFS. The order of effects (20_memory.md section 4): the queries write nothing (R58), later inputs do not reach earlier commands
(R33, R59), and the instances of a platform do not reach each other (R60, 10_state.md R39).
-/

namespace Sys2Proof.Machine

/-- The effect of a query leaves the engine as it is (R58). -/
theorem effectOf_query {i : Instr} (hi : i ∈ [Instr.isAuth, .accBytes, .srBytes, .status]) (e : Engine) :
    (effectOf i e).1 = e := by
  simp only [List.mem_cons, List.not_mem_nil, or_false] at hi
  obtain rfl | rfl | rfl | rfl := hi <;> rfl

/-- A query that passes its checks gives its answer and nothing else (R58). -/
theorem exec_query {i : Instr} {s : State} (hi : i ∈ [Instr.isAuth, .accBytes, .srBytes, .status])
    (hp : firstFailure (checksOf s.engine i) = none) :
    exec i s = .next (s.answer s.engine (Resp.ok (effectOf i s.engine).2)) := by
  rw [exec_ok hp, effectOf_query hi]

/-- Settles O40: a query that succeeds leaves the engine, so its checks and its answer are the same again. -/
theorem queriesAreIdempotent : Obligations.QueriesAreIdempotent := by
  intro i s t r hi h hr hok
  obtain ⟨c, -, rfl⟩ | ⟨hp, rfl⟩ := exec_cases h
  · obtain rfl : Resp.error (.precondition c) = r := by simpa using hr
    simp [Cause.st] at hok
  · obtain rfl : Resp.ok (effectOf i s.engine).2 = r := by simpa using hr
    rw [effectOf_query hi]
    exact ⟨rfl, rfl, rfl, exec_query hi hp⟩

/-- A command does not read the inputs that wait (R59). -/
theorem exec_withInputs {i : Instr} {s t : State} (h : exec i s = .next t) (later : List HostInput) :
    exec i { s with inputs := later } = .next { t with inputs := later } := by
  rw [exec_eq_runCommand]
  obtain ⟨c, hc, rfl⟩ | ⟨hp, rfl⟩ := exec_cases h
  · exact State.runCommand_error hc _
  · exact State.runCommand_ok hp _

/-- A step takes one input and does not read those presented after it (R33, R59). -/
theorem step_withInputs {s t : State} {x : HostInput} {rest : List HostInput} (hi : s.inputs = x :: rest)
    (h : step s = .next t) (later : List HostInput) :
    step { s with inputs := x :: later } = .next { t with inputs := later } := by
  obtain ⟨hi', -⟩ | ⟨rest', hi', rfl⟩ | ⟨w, rest', c, hi', hd, rfl⟩ | ⟨w, rest', i, hi', hd, hx⟩ := step_cases h <;>
    cases hi.symm.trans hi'
  · exact step_reset (s := { s with inputs := .reset :: later }) rfl
  · exact step_illegal (s := { s with inputs := .word w :: later }) rfl hd
  · exact (step_command rfl hd).trans (exec_withInputs hx later)

/-- Settles O11, by induction on the inputs: each step takes one and reads no later one. -/
theorem inputsTakeEffectInOrder : Obligations.InputsTakeEffectInOrder := by
  intro xs ys
  induction xs with
  | nil => exact fun s hi => ⟨s, rfl, hi, rfl⟩
  | cons x xs ih =>
    intro s hi
    obtain ⟨u, hu⟩ := step_next s
    obtain ⟨t, hrun, hys, halone⟩ := ih u (by rw [step_inputs hu, hi]; rfl)
    exact ⟨t, (run_succ _ hu).trans hrun, hys, (run_succ _ (step_withInputs hi hu xs)).trans halone⟩

/-- Stepping an engine number the platform does not have does nothing (log 10). -/
theorem Platform.stepInstance_absent {p : Platform} {k : Nat} (h : p.instances[k]? = none) :
    p.stepInstance k = .next p := by
  simp only [stepInstance, h]

/-- Stepping one engine of a platform replaces its state by the next one, and no other (R39, R60). -/
theorem Platform.stepInstance_present {p : Platform} {k : Nat} {s t : State} (h : p.instances[k]? = some s)
    (hs : step s = .next t) : p.stepInstance k = .next { instances := p.instances.set k t } := by
  simp only [stepInstance, h, hs]

/-- An interleaving of one step more. -/
theorem Platform.run_cons {p q : Platform} {k : Nat} (h : p.stepInstance k = .next q) (ks : List Nat) :
    p.run (k :: ks) = q.run ks := by
  simp only [run, h]

/-- Settles O48, by induction on the interleaving: stepping engine j takes it one step on and leaves the others. -/
theorem instancesAreIndependent : Obligations.InstancesAreIndependent := by
  intro ks
  induction ks with
  | nil => exact fun p => ⟨p, rfl, rfl, fun k s hs => ⟨s, hs, rfl⟩⟩
  | cons j ks ih =>
    intro p
    cases hj : p.instances[j]? with
    | none =>
      obtain ⟨q, hq, hlen, hall⟩ := ih p
      refine ⟨q, (Platform.run_cons (Platform.stepInstance_absent hj) ks).trans hq, hlen, fun k s hs => ?_⟩
      have hne : j ≠ k := by
        rintro rfl
        simp [hs] at hj
      rw [List.count_cons_of_ne hne]
      exact hall k s hs
    | some u =>
      obtain ⟨v, hv⟩ := step_next u
      obtain ⟨q, hq, hlen, hall⟩ := ih { instances := p.instances.set j v }
      refine ⟨q, (Platform.run_cons (Platform.stepInstance_present hj hv) ks).trans hq,
        hlen.trans List.length_set, fun k s hs => ?_⟩
      by_cases hjk : j = k
      · subst hjk
        obtain rfl : u = s := Option.some.inj (hj.symm.trans hs)
        rw [List.count_cons_self, run_succ _ hv]
        obtain ⟨hlt, -⟩ := List.getElem?_eq_some_iff.1 hj
        exact hall j v (List.getElem?_set_self hlt)
      · rw [List.count_cons_of_ne hjk]
        exact hall k s ((List.getElem?_set_ne hjk).trans hs)

end Sys2Proof.Machine
end

section
/-!
PROOFS. Commands and words (30_encoding.md R70 to R78): decoding and encoding are inverse to each other, so a word decodes to a
command exactly when its number is the command's count above its opcode; every other word is refused with the cause of R78.
-/

namespace Sys2Proof

/-- A command is well formed where its count fits the field COUNT (R71). -/
theorem Instr.wellFormed_iff (i : Instr) : i.wellFormed = true ↔ i.count < 2 ^ 24 := by
  cases i with
  | ksBytes n | authStreams n => exact decide_eq_true_iff
  | init | diffuse | isAuth | accBytes | srBytes | status => simp [Instr.wellFormed, Instr.count]

/-- The opcode map chooses the command of that opcode, with the word's count where the command uses one (R74). -/
theorem selectOp_eq_some {opc count : Nat} {i : Instr} (h : selectOp opc count = some i) :
    opc = i.opcode.toNat ∧ i.count = if i.usesCount then count else 0 := by
  unfold selectOp at h
  split at h <;> cases h <;> exact ⟨rfl, rfl⟩

/-- The reserved opcodes are 0 and those from 9 (R75). -/
theorem selectOp_eq_none {opc : Nat} (count : Nat) (h : opc = 0 ∨ 9 ≤ opc) : selectOp opc count = none := by
  rcases h with rfl | h
  · rfl
  · obtain ⟨k, rfl⟩ := Nat.exists_eq_add_of_le' h
    rfl

/-- Every other opcode is a command's (R74). -/
theorem selectOp_isSome {opc : Nat} (count : Nat) (h1 : 1 ≤ opc) (h8 : opc ≤ 8) : ∃ i, selectOp opc count = some i := by
  interval_cases opc <;> exact ⟨_, rfl⟩

/-- Only the opcodes 4 and 5 use COUNT (R74). -/
theorem Instr.usesCount_eq_false {i : Instr} (h4 : i.opcode.toNat ≠ 4) (h5 : i.opcode.toNat ≠ 5) :
    i.usesCount = false := by
  cases i with
  | ksBytes n => exact absurd rfl h4
  | authStreams n => exact absurd rfl h5
  | init | diffuse | isAuth | accBytes | srBytes | status => rfl

theorem rsvField_eq_zero (w : Word) : rsvField w = 0 ↔ w.toNat / 16 % 16 = 0 := by
  rw [← rsvField_toNat, BitVec.toNat_eq]
  rfl

/-- A word of a reserved opcode is refused for it, whatever else it holds (R75, R78). -/
theorem decode_reservedOpcode {w : Word} (h : selectOp (opcField w).toNat (countField w) = none) :
    decode w = .error .reservedOpcode := by
  rw [decode, h]

/-- A word of a command's opcode with a bit of RSV set is refused for it (R76, R78). -/
theorem decode_reservedBits {w : Word} {i : Instr} (h : selectOp (opcField w).toNat (countField w) = some i)
    (hr : rsvField w ≠ 0) : decode w = .error .reservedBits := by
  rw [decode, h]
  exact if_pos hr

/-- A word of a count-less opcode with a count, RSV being 0, is refused for it (R77, R78). -/
theorem decode_countNotAllowed {w : Word} {i : Instr} (h : selectOp (opcField w).toNat (countField w) = some i)
    (hr : rsvField w = 0) (hu : i.usesCount = false) (hc : countField w ≠ 0) : decode w = .error .countNotAllowed := by
  rw [decode, h]
  exact (if_neg (not_not.2 hr)).trans (if_pos ⟨hu, hc⟩)

/-- Settles O2, command by command. -/
theorem decodeOfEncodeIsTheCommand : Obligations.DecodeOfEncodeIsTheCommand := by
  intro i
  cases i with
  | init => exact Laws.RoundTrip.init
  | diffuse => exact Laws.RoundTrip.diffuse
  | isAuth => exact Laws.RoundTrip.isAuth
  | ksBytes n => exact Laws.RoundTrip.ksBytes n
  | authStreams n => exact Laws.RoundTrip.authStreams n
  | accBytes => exact Laws.RoundTrip.accBytes
  | srBytes => exact Laws.RoundTrip.srBytes
  | status => exact Laws.RoundTrip.status

/-- What a word decodes to has the word's count, also where that must be 0 (R77). -/
theorem count_of_decode {w : Word} {i : Instr} (h : decode w = .ok i) : i.count = countField w := by
  obtain ⟨hs, -, hc⟩ := decode_ok h
  obtain ⟨-, hcount⟩ := selectOp_eq_some hs
  rcases hc with hu | h0
  · rw [hcount, if_pos hu]
  · rw [hcount, h0, ite_self]

/-- Settles O3: the three fields of a word that decodes are those of the command, and they are the whole word. -/
theorem encodeOfDecodeIsTheWord : Obligations.EncodeOfDecodeIsTheWord := by
  intro w i h
  obtain ⟨hs, hrsv, -⟩ := decode_ok h
  obtain ⟨hopc, -⟩ := selectOp_eq_some hs
  have hcount := count_of_decode h
  rw [opcField_toNat] at hopc
  rw [rsvField_eq_zero] at hrsv
  rw [countField_eq] at hcount
  have hw := w.isLt
  refine ⟨i.wellFormed_iff.2 (by omega), BitVec.eq_of_toNat_eq ?_⟩
  rw [encode_toNat]
  omega

/-- A word decodes to a command exactly when it is the command's count above its opcode (R70, R78). -/
theorem decode_eq_ok_iff {w : Word} {i : Instr} :
    decode w = .ok i ↔ i.count < 2 ^ 24 ∧ w.toNat = i.count * 256 + i.opcode.toNat := by
  constructor
  · intro h
    obtain ⟨hwf, rfl⟩ := encodeOfDecodeIsTheWord w i h
    have hlt := i.wellFormed_iff.1 hwf
    exact ⟨hlt, by rw [encode_toNat, Nat.mod_eq_of_lt hlt]⟩
  · rintro ⟨hlt, hw⟩
    have hword : w = encode i := BitVec.eq_of_toNat_eq (by rw [hw, encode_toNat, Nat.mod_eq_of_lt hlt])
    rw [hword]
    exact decodeOfEncodeIsTheCommand i (i.wellFormed_iff.2 hlt)

/-- A word decodes to a count-less command exactly when it is the command's opcode (R74, R77). -/
theorem decode_eq_ok_countless {w : Word} {i : Instr} (hc : i.count = 0) :
    decode w = .ok i ↔ w.toNat = i.opcode.toNat := by
  simp [decode_eq_ok_iff, hc]

/-- Settles O1: a refusal for each check of R78, in its order; what passes them all is a command's word. -/
theorem decodeFollowsTheOpcodeMap : Obligations.DecodeFollowsTheOpcodeMap := by
  intro w
  rw [← opcField_toNat w, ← countField_eq w]
  refine ⟨fun h => ?_, fun h1 h8 hr => ?_, fun h1 h8 hr h4 h5 hc => ?_, decode_eq_ok_countless rfl,
    decode_eq_ok_countless rfl, decode_eq_ok_countless rfl, fun n => decode_eq_ok_iff, fun n => decode_eq_ok_iff,
    decode_eq_ok_countless rfl, decode_eq_ok_countless rfl, decode_eq_ok_countless rfl⟩
  · exact decode_reservedOpcode (selectOp_eq_none _ h)
  · obtain ⟨i, hi⟩ := selectOp_isSome (countField w) h1 h8
    exact decode_reservedBits hi (mt (rsvField_eq_zero w).1 hr)
  · obtain ⟨i, hi⟩ := selectOp_isSome (countField w) h1 h8
    obtain ⟨hopc, -⟩ := selectOp_eq_some hi
    rw [hopc] at h4 h5
    exact decode_countNotAllowed hi ((rsvField_eq_zero w).2 hr) (Instr.usesCount_eq_false h4 h5) hc

end Sys2Proof
end

section
/-!
PROOFS. The assembler (30_encoding.md R79, R80): what a line gives by its mnemonic (count-less, counted, unknown), and that the
words of any line are commands.
-/

namespace Sys2Proof.Machine

/-- The mnemonic of a line stands for `form` in R79's table. -/
def StandsFor (m : List Char) (form : AsmForm) : Prop :=
  ∃ name, asmMnemonics.find? (fun p => p.1.toList == m) = some (name, form)

/-- A mnemonic that takes a count, with the command and the opcode it stands for (R79). -/
structure CountedMnemonic (m : String) (mk : Nat → Instr) (opc : Nat) : Prop where
  ne_nil : m.toList ≠ []
  tokenChars : ∀ c ∈ m.toList, IsTokenChar c
  standsFor : StandsFor m.toList (.counted mk)
  wellFormed : ∀ n, (mk n).wellFormed = countFits n
  count : ∀ n, (mk n).count = n
  opcode : ∀ n, (mk n).opcode.toNat = opc

theorem ksBytes_counted : CountedMnemonic "ks_bytes" .ksBytes 4 :=
  ⟨by decide, by simp [IsTokenChar], ⟨_, rfl⟩, fun _ => rfl, fun _ => rfl, fun _ => rfl⟩

theorem authStreams_counted : CountedMnemonic "auth_streams" .authStreams 5 :=
  ⟨by decide, by simp [IsTokenChar], ⟨_, rfl⟩, fun _ => rfl, fun _ => rfl, fun _ => rfl⟩

section
variable {m : String} {mk : Nat → Instr} {opc : Nat} (hm : CountedMnemonic m mk opc)
include hm

/-- A counted mnemonic with one token after it is its command with that token read as the count. -/
theorem CountedMnemonic.line_eq {a : List Char} (hne : a ≠ []) (ha : ∀ c ∈ a, IsTokenChar c) :
    assembleLine (m.toList ++ ' ' :: a) =
      (readCount a).bind fun n => (assembleInstr (mk n)).map fun w => [w] := by
  obtain ⟨name, hfind⟩ := hm.standsFor
  rw [assembleLine_two hm.ne_nil hm.tokenChars hne ha, hfind]

/-- The line of a counted mnemonic and a token that reads as a number, with the range check (R79). -/
theorem CountedMnemonic.line_of_readCount {a : List Char} {n : Nat} (hne : a ≠ []) (ha : ∀ c ∈ a, IsTokenChar c)
    (hn : readCount a = some n) :
    assembleLine (m.toList ++ ' ' :: a) = if n < 2 ^ 24 then some [BitVec.ofNat 32 (n * 256 + opc)] else none := by
  rw [hm.line_eq hne ha, hn]
  exact assembleInstr_counted (hm.wellFormed n) (hm.count n) (hm.opcode n)

theorem CountedMnemonic.line_decimal {ds : List Nat} (hne : ds ≠ []) (h : ∀ d ∈ ds, d < 10) :
    assembleLine (m.toList ++ ' ' :: numeral ds) =
      if numeralValue 10 ds < 2 ^ 24 then some [BitVec.ofNat 32 (numeralValue 10 ds * 256 + opc)] else none :=
  hm.line_of_readCount (by simpa [numeral] using hne)
    (numeral_tokenChars fun d hd => (h d hd).trans (by decide)) (readCount_decimal hne h)

theorem CountedMnemonic.line_hex {ds : List Nat} (hne : ds ≠ []) (h : ∀ d ∈ ds, d < 16) :
    assembleLine (m.toList ++ ' ' :: '0' :: 'x' :: numeral ds) =
      if numeralValue 16 ds < 2 ^ 24 then some [BitVec.ofNat 32 (numeralValue 16 ds * 256 + opc)] else none := by
  refine hm.line_of_readCount (by simp) (fun c hc => ?_) (readCount_hex hne h)
  obtain rfl | rfl | hc : c = '0' ∨ c = 'x' ∨ c ∈ numeral ds := by simpa using hc
  · decide
  · decide
  · exact numeral_tokenChars h c hc

/-- A counted mnemonic without its count is rejected (log 12). -/
theorem CountedMnemonic.line_alone : assembleLine m.toList = none := by
  obtain ⟨name, hfind⟩ := hm.standsFor
  rw [assembleLine_one hm.ne_nil hm.tokenChars, hfind]

/-- What a counted mnemonic accepts as its count is written in decimal or as `0x` hex (R79). -/
theorem CountedMnemonic.count_chars {a : List Char} {ws : List Word} (hne : a ≠ []) (ha : ∀ c ∈ a, IsTokenChar c)
    (h : assembleLine (m.toList ++ ' ' :: a) = some ws) :
    (∀ c ∈ a, c ∈ "0123456789".toList) ∨
      ∃ cs, a = '0' :: 'x' :: cs ∧ cs ≠ [] ∧ ∀ c ∈ cs, c ∈ "0123456789abcdefABCDEF".toList := by
  rw [hm.line_eq hne ha] at h
  obtain ⟨n, hn, -⟩ := Option.bind_eq_some_iff.1 h
  exact readCount_chars hn

end

/-- The count-less mnemonics, `create` among them, each of tokens' characters only (R79). -/
theorem countless_standsFor {m : String}
    (hm : m ∈ ["init", "diffuse", "is_auth", "acc_bytes", "sr_bytes", "status", "create"]) :
    m.toList ≠ [] ∧ (∀ c ∈ m.toList, IsTokenChar c) ∧ ∃ is, StandsFor m.toList (.plain is) := by
  simp only [List.mem_cons, List.not_mem_nil, or_false] at hm
  rcases hm with rfl | rfl | rfl | rfl | rfl | rfl | rfl <;>
    exact ⟨by decide, by simp [IsTokenChar], _, _, rfl⟩

/-- A token after a count-less mnemonic is rejected (R79). -/
theorem assembleLine_plain_operand {m : List Char} {is : List Instr} (hne : m ≠ []) (hm : ∀ c ∈ m, IsTokenChar c)
    (hform : StandsFor m (.plain is)) {c : Char} (hc : IsTokenChar c) (rest : List Char) :
    assembleLine (m ++ ' ' :: c :: rest) = none := by
  obtain ⟨name, hfind⟩ := hform
  have hargs : tokens [] ((c :: rest).takeWhile (· != ';')) ≠ [] := by
    rw [List.takeWhile_cons_of_pos (by simpa using hc.2.2), tokens, isBlank_of_tokenChar hc, if_neg (by decide)]
    exact tokens_ne_nil (by simp) _
  rw [assembleLine, lineTokens_space hne hm]
  dsimp only
  rw [hfind]
  generalize tokens [] ((c :: rest).takeWhile (· != ';')) = args at hargs
  rcases args with _ | ⟨a, args⟩
  · exact absurd rfl hargs
  · rfl

/-- A line whose first token is no mnemonic is rejected, whatever its other tokens are (R79). -/
theorem assembleLine_unknown {line m : List Char} {args : List (List Char)}
    (hline : tokens [] (line.takeWhile (· != ';')) = m :: args)
    (hm : m ∉ asmMnemonics.map fun p => p.1.toList) : assembleLine line = none := by
  have hfind : asmMnemonics.find? (fun p => p.1.toList == m) = none := by
    rw [List.find?_eq_none]
    exact fun p hp heq => hm (List.mem_map.2 ⟨p, hp, by simpa using heq⟩)
  rw [assembleLine, hline]
  dsimp only
  rw [hfind]

/-- What a line that is accepted can be: no token, a count-less mnemonic, or one command with its count (R79). -/
theorem assembleLine_cases {line : List Char} {ws : List Word} (h : assembleLine line = some ws) :
    ws = [] ∨ (∃ p is, (p, AsmForm.plain is) ∈ asmMnemonics ∧ is.mapM assembleInstr = some ws) ∨
      ∃ i w, assembleInstr i = some w ∧ ws = [w] := by
  unfold assembleLine at h
  split at h
  · exact .inl (Option.some.inj h).symm
  · split at h
    · rename_i hfind _
      exact .inr (.inl ⟨_, _, List.mem_of_find?_eq_some hfind, h⟩)
    · obtain ⟨n, -, hn⟩ := Option.bind_eq_some_iff.1 h
      obtain ⟨w, hw, rfl⟩ := Option.map_eq_some_iff.1 hn
      exact .inr (.inr ⟨_, w, hw, rfl⟩)
    · cases h

/-- Each count-less mnemonic stands for at most two commands (R79). -/
theorem length_of_plain {p : String} {is : List Instr} (h : (p, AsmForm.plain is) ∈ asmMnemonics) : is.length ≤ 2 := by
  simp only [asmMnemonics, List.mem_cons, Prod.mk.injEq, AsmForm.plain.injEq, reduceCtorEq, and_false, false_or,
    List.not_mem_nil, or_false] at h
  obtain ⟨-, rfl⟩ | ⟨-, rfl⟩ | ⟨-, rfl⟩ | ⟨-, rfl⟩ | ⟨-, rfl⟩ | ⟨-, rfl⟩ | ⟨-, rfl⟩ := h <;> decide

/-- An assembled command decodes to itself (R70, R74). -/
theorem decode_of_assembleInstr {i : Instr} {w : Word} (h : assembleInstr i = some w) : decode w = .ok i := by
  obtain ⟨hwf, hw⟩ := Option.ite_none_right_eq_some.1 h
  obtain rfl := Option.some.inj hw
  exact decodeOfEncodeIsTheCommand i hwf

/-- A list of commands is assembled to as many words, each of which decodes to a command. -/
theorem words_of_mapM {is : List Instr} {ws : List Word} (h : is.mapM assembleInstr = some ws) :
    ws.length = is.length ∧ ∀ w ∈ ws, ∃ i, decode w = .ok i := by
  induction is generalizing ws with
  | nil =>
    obtain rfl : [] = ws := by simpa using h
    simp
  | cons i is ih =>
    obtain ⟨w, hw, vs, hvs, rfl⟩ : ∃ w, assembleInstr i = some w ∧
        ∃ vs, is.mapM assembleInstr = some vs ∧ w :: vs = ws := by
      simpa [List.mapM_cons, Option.bind_eq_some_iff] using h
    obtain ⟨hlen, hdec⟩ := ih hvs
    refine ⟨by simp [hlen], fun v hv => ?_⟩
    rcases List.mem_cons.1 hv with rfl | hv
    · exact ⟨i, decode_of_assembleInstr hw⟩
    · exact hdec v hv

/-- Whatever line is accepted, its words are commands, at most two. -/
theorem assembleLine_words {line : List Char} {ws : List Word} (h : assembleLine line = some ws) :
    ws.length ≤ 2 ∧ ∀ w ∈ ws, ∃ i, decode w = .ok i := by
  obtain rfl | ⟨p, is, hp, his⟩ | ⟨i, w, hi, rfl⟩ := assembleLine_cases h
  · simp
  · obtain ⟨hlen, hdec⟩ := words_of_mapM his
    exact ⟨hlen.trans_le (length_of_plain hp), hdec⟩
  · simpa using ⟨i, decode_of_assembleInstr hi⟩

/-- Settles O5, each clause by the form of its line. -/
theorem assembledWordsAreCommands : Obligations.AssembledWordsAreCommands := by
  refine ⟨by decide, fun ds hne h => ⟨ksBytes_counted.line_decimal hne h, authStreams_counted.line_decimal hne h⟩,
    fun ds hne h => ⟨ksBytes_counted.line_hex hne h, authStreams_counted.line_hex hne h⟩, fun m hm => ?counts,
    fun m hm c rest hc => ?countless, fun m hne hm hno => ?unknown, assembleLine_comment,
    fun line ws => assembleLine_words⟩
  case counts =>
    obtain rfl | rfl : m = "ks_bytes" ∨ m = "auth_streams" := by simpa using hm
    · exact ⟨ksBytes_counted.line_alone, fun a ws => ksBytes_counted.count_chars⟩
    · exact ⟨authStreams_counted.line_alone, fun a ws => authStreams_counted.count_chars⟩
  case countless =>
    obtain ⟨hne, hchars, is, hform⟩ := countless_standsFor hm
    exact assembleLine_plain_operand hne hchars hform hc rest
  case unknown =>
    exact ⟨assembleLine_unknown (lineTokens_one hne hm) hno,
      fun rest => assembleLine_unknown (lineTokens_space hne hm rest) hno⟩

/-- Settles O4: the worked lines and words, evaluated. -/
theorem workedEncodings : Obligations.WorkedEncodings := by
  unfold Obligations.WorkedEncodings
  decide

end Sys2Proof.Machine
end

section
/-!
PROOFS. The combinational functions (40_functions.md R100 to R109): the two tap functions as parities of positions, the nonlinear
feedback as an XOR of ANDs, the filter as a truth table, and the shift as arithmetic.
-/

namespace Sys2Proof.Machine

/-- Flipping bit `j` of a register is seen at position `j` only. -/
theorem getLsbD_xor_twoPow (R : Reg128) (j : Nat) {p : Nat} (hp : p < 128) :
    (R ^^^ BitVec.twoPow 128 j).getLsbD p = (R.getLsbD p ^^ decide (p = j)) := by
  simp [hp]

/-- The XOR of the register's bits at the listed positions: the shape of R100 and R108. -/
def tapParity (taps : List Nat) (R : Reg128) : Bool := (taps.map R.getLsbD).foldr xor false

@[simp] theorem tapParity_nil (R : Reg128) : tapParity [] R = false := rfl

@[simp] theorem tapParity_cons (p : Nat) (taps : List Nat) (R : Reg128) :
    tapParity (p :: taps) R = (R.getLsbD p ^^ tapParity taps R) := rfl

/-- Flipping bit `j` flips a parity of distinct positions exactly when `j` is one of them. -/
theorem tapParity_flip {taps : List Nat} (hnodup : taps.Nodup) (hlt : ∀ p ∈ taps, p < 128) (R : Reg128) (j : Nat) :
    tapParity taps (R ^^^ BitVec.twoPow 128 j) = (tapParity taps R ^^ decide (j ∈ taps)) := by
  induction taps with
  | nil => simp
  | cons p taps ih =>
    obtain ⟨hp, hnodup⟩ := List.nodup_cons.1 hnodup
    obtain ⟨hp128, hlt⟩ := List.forall_mem_cons.1 hlt
    rw [tapParity_cons, tapParity_cons, getLsbD_xor_twoPow R j hp128, ih hnodup hlt]
    by_cases hj : j = p
    · subst hj
      simp [hp]
    · simp [hj, Ne.symm hj]

theorem linearFeedback_eq_tapParity (L : Reg128) :
    linearFeedback L = tapParity [31, 46, 57, 89, 120, 127] L := by
  simp [linearFeedback]

theorem nfsrTerm_eq_tapParity (N : Reg128) :
    nfsrTerm N = tapParity [125, 112, 91, 82, 63, 54, 38] N := by
  simp [nfsrTerm]

/-- Settles O21: the linear feedback is the parity of its six taps. -/
theorem linearFeedbackTaps : Obligations.LinearFeedbackTaps := by
  refine ⟨by decide, by decide, fun L j _ => ?_, by decide⟩
  rw [linearFeedback_eq_tapParity, linearFeedback_eq_tapParity]
  exact tapParity_flip (by decide) (by decide) L j

/-- Settles O24: the output term is the parity of its seven positions. -/
theorem nfsrTermTaps : Obligations.NfsrTermTaps := by
  refine ⟨by decide, by decide, fun N j _ => ?_⟩
  rw [nfsrTerm_eq_tapParity, nfsrTerm_eq_tapParity]
  exact tapParity_flip (by decide) (by decide) N j

/-- The XOR of the ANDs of the register's bits at each term's positions: the shape of R102. -/
def xorOfTerms (terms : List (List Nat)) (R : Reg128) : Bool :=
  (terms.map fun term => term.all R.getLsbD).foldr xor false

/-- An XOR of ANDs reads the positions of its terms only. -/
theorem xorOfTerms_congr {terms : List (List Nat)} {R R' : Reg128}
    (h : ∀ p ∈ terms.flatten, R.getLsbD p = R'.getLsbD p) : xorOfTerms terms R = xorOfTerms terms R' := by
  have hterm : ∀ term ∈ terms, term.all R.getLsbD = term.all R'.getLsbD := by
    intro term ht
    rw [Bool.eq_iff_iff, List.all_eq_true, List.all_eq_true]
    exact forall₂_congr fun p hp => by rw [h p (List.mem_flatten.2 ⟨term, ht, hp⟩)]
  rw [xorOfTerms, xorOfTerms, List.map_congr_left hterm]

/-- The fifteen terms of R102. -/
def nonlinearTerms : List (List Nat) :=
  [[31], [36], [71], [101], [127], [43, 59], [60, 124], [62, 66], [68, 100], [79, 87], [109, 110], [114, 116],
    [45, 49, 57], [102, 103, 105], [32, 34, 35, 39]]

theorem nonlinearFeedback_eq_xorOfTerms (N : Reg128) : nonlinearFeedback N = xorOfTerms nonlinearTerms N := by
  simp [nonlinearFeedback, xorOfTerms, nonlinearTerms, Bool.and_assoc]

/-- Settles O22: the nonlinear feedback is the XOR of its terms, so it reads their positions only. -/
theorem nonlinearFeedbackTerms : Obligations.NonlinearFeedbackTerms := by
  refine ⟨nonlinearFeedback_eq_xorOfTerms, fun N M h => ?_, by decide, by decide, by decide, by decide⟩
  rw [nonlinearFeedback_eq_xorOfTerms, nonlinearFeedback_eq_xorOfTerms]
  exact xorOfTerms_congr h

/-- The filter reads its nine inputs of R106 and nothing else. -/
theorem filter_eq_filterFormula (L N : Reg128) :
    filter L N = filterFormula (N.getLsbD 115) (L.getLsbD 119) (L.getLsbD 114) (L.getLsbD 107) (N.getLsbD 32)
      (L.getLsbD 85) (L.getLsbD 67) (L.getLsbD 48) (L.getLsbD 33) := rfl

/-- The formula of R107 on the bits of `v` is bit `v` of the truth table V-H1, on each of the 512 inputs. -/
theorem filterFormula_eq_table (v : BitVec 9) :
    filterFormula (v.getLsbD 0) (v.getLsbD 1) (v.getLsbD 2) (v.getLsbD 3) (v.getLsbD 4) (v.getLsbD 5) (v.getLsbD 6)
      (v.getLsbD 7) (v.getLsbD 8) = Nat.testBit
      0xD22287772DDD87772DDD7888D22278882DDD7888D22278882DDD7888D22278887888877787778777877778887888788887777888788878888777788878887888
      v.toNat := by
  revert v
  decide +kernel

/-- Settles O23: the filter is its formula, and the formula is the table; the count is the table's own. -/
theorem filterFollowsTheTruthTable : Obligations.FilterFollowsTheTruthTable := by
  refine ⟨fun L N v h0 h1 h2 h3 h4 h5 h6 h7 h8 => ?_, by decide +kernel, by decide⟩
  rw [filter_eq_filterFormula, h0, h1, h2, h3, h4, h5, h6, h7, h8]
  exact filterFormula_eq_table v

/-- With `N` all zeros only the two products of LFSR bits are left of the filter (R107). -/
theorem filter_zero_right (L : Reg128) :
    filter L 0 = ((L.getLsbD 114 && L.getLsbD 107) ^^ (L.getLsbD 67 && L.getLsbD 48)) := by
  simp [filter_eq_filterFormula, filterFormula]

/-- Settles O25: the definition of the round output, with what its terms are on `N = 0`. -/
theorem preOutputTerms : Obligations.PreOutputTerms := by
  refine ⟨fun L N => rfl, by decide, by decide, fun L => ?_, by decide, by decide⟩
  have hterm : nfsrTerm 0 = false := by decide
  rw [preOutput, filter_zero_right, hterm, Bool.xor_false]
  rfl

/-- The bit that leaves is the register's quotient by its top weight (R104). -/
theorem shift_out_toNat (R : Reg128) (fb : Bool) : (shift R fb).1.toNat = R.toNat / 2 ^ 127 := by
  have hR := R.isLt
  calc (shift R fb).1.toNat = R.toNat / 2 ^ 127 % 2 := Nat.toNat_testBit R.toNat 127
    _ = R.toNat / 2 ^ 127 := by omega

/-- The new bit comes in below the doubled register, without a carry (R104). -/
theorem shift_toNat_eq_add (R : Reg128) (fb : Bool) :
    (shift R fb).2.toNat = 2 * R.toNat % 2 ^ 128 + fb.toNat := by
  have hfb := fb.toNat_le
  rw [shift_toNat]
  omega

/-- Settles O26: each bit by `shift_getLsbD`, the two numbers by their own lemmas. -/
theorem shiftMovesEveryBit : Obligations.ShiftMovesEveryBit := by
  refine ⟨fun R fb => ⟨rfl, ?_, fun i h1 h127 => ?_, shift_toNat_eq_add R fb, shift_out_toNat R fb⟩, by decide⟩
  · rw [shift_getLsbD, if_pos rfl]
  · have h0 : i ≠ 0 := by omega
    have hlt : i < 128 := by omega
    rw [shift_getLsbD, if_neg h0, decide_eq_true hlt, Bool.true_and]

end Sys2Proof.Machine
end

section
/-!
PROOFS. The round (41_round.md R130 to R136): what enters each shift register and what moves up in it, in either phase, and a run
of rounds seen from its last round.
-/

namespace Sys2Proof.Machine

/-- One round more at the end of a run: `rounds` itself is defined from the first round on (R136). -/
theorem Engine.rounds_succ_last (e : Engine) (k : Nat) :
    e.rounds (k + 1) = ((e.rounds k).1 ++ [(e.rounds k).2.round.1], (e.rounds k).2.round.2) := by
  induction k generalizing e with
  | zero => rfl
  | succ k ih => rw [rounds_succ, ih e.round.2, rounds_succ e k, List.cons_append]

/-- Settles O29: zero rounds by definition, one round more at its end, and each output by `rounds_bit`. -/
theorem roundsIterateTheRound : Obligations.RoundsIterateTheRound := by
  refine fun e => ⟨rfl, fun k => ⟨?state, ?outputs, fun j hj => e.rounds_bit hj⟩⟩
  case state => rw [e.rounds_succ_last k]
  case outputs => rw [e.rounds_succ_last k]

/-- What enters the LFSR: the linear feedback, and the output too while diffusing (R131, R132). -/
theorem Engine.round_lfsr_enters (e : Engine) :
    e.round.2.lfsr.getLsbD 0 = (linearFeedback e.lfsr ^^ (e.diffusing && preOutput e.lfsr e.nfsr)) := by
  rw [round_lfsr, shift_getLsbD, if_pos rfl]

/-- What enters the NFSR: the nonlinear feedback and the bit that leaves the LFSR, and the output too while diffusing
(R131, R132). -/
theorem Engine.round_nfsr_enters (e : Engine) :
    e.round.2.nfsr.getLsbD 0 =
      (nonlinearFeedback e.nfsr ^^ e.lfsr.getLsbD 127 ^^ (e.diffusing && preOutput e.lfsr e.nfsr)) := by
  rw [round_nfsr, shift_getLsbD, if_pos rfl]
  rfl

/-- Every other bit of both registers comes from one position below, whatever entered (R104, R130). -/
theorem Engine.round_moves_up (e : Engine) {i : Nat} (h1 : 1 ≤ i) (h127 : i ≤ 127) :
    e.round.2.lfsr.getLsbD i = e.lfsr.getLsbD (i - 1) ∧ e.round.2.nfsr.getLsbD i = e.nfsr.getLsbD (i - 1) := by
  have hshift (R : Reg128) (fb : Bool) : (shift R fb).2.getLsbD i = R.getLsbD (i - 1) := by
    obtain ⟨-, -, hmoves, -, -⟩ := shiftMovesEveryBit.1 R fb
    exact hmoves i h1 h127
  rw [round_lfsr, round_nfsr]
  exact ⟨hshift .., hshift ..⟩

/-- Settles O27: the two entering bits with the phase flag 1; the rest of a round does not depend on the flag. -/
theorem diffusionClockingFeedsTheOutputBack : Obligations.DiffusionClockingFeedsTheOutputBack := by
  refine fun e hdiffusing => ⟨e.round_output, e.round_frame, ?lfsr, ?nfsr, fun i => e.round_moves_up⟩
  case lfsr => rw [e.round_lfsr_enters, hdiffusing, Bool.true_and]
  case nfsr => rw [e.round_nfsr_enters, hdiffusing, Bool.true_and]

/-- Settles O28: the two entering bits with the phase flag 0; the rest of a round does not depend on the flag. -/
theorem runningClockingKeepsTheOutputOut : Obligations.RunningClockingKeepsTheOutputOut := by
  refine fun e hrunning => ⟨e.round_output, e.round_frame, ?lfsr, ?nfsr, fun i => e.round_moves_up⟩
  case lfsr => rw [e.round_lfsr_enters, hrunning, Bool.false_and, Bool.xor_false]
  case nfsr => rw [e.round_nfsr_enters, hrunning, Bool.false_and, Bool.xor_false]

end Sys2Proof.Machine
end

section
/-!
PROOFS. INIT and DIFFUSE (42_init_diffuse.md): what each does in every state, that only DIFFUSE ends the diffusion phase
(R154), and that `create` gives one engine from every state, whose answers do not depend on `pv` (R156).
-/

namespace Sys2Proof.Machine

/-! ### INIT, DIFFUSE and the two in sequence -/

/-- A command whose check fails raises the cause of the first failing check (R171). -/
theorem exec_error {i : Instr} {s : State} {c : PreconditionCause} (h : firstFailure (checksOf s.engine i) = some c) :
    exec i s = .next (s.violatedWith c) := by
  rw [exec_eq_runCommand, State.runCommand_error h]
  rfl

/-- INIT answers OK in every state (R150). -/
theorem exec_init (s : State) : exec .init s = .next (s.okWith (initEffect s.engine).1 0 [] []) := exec_ok rfl

/-- DIFFUSE answers OK on an initialised engine that is not diffused (R153). -/
theorem exec_diffuse {s : State} (hi : s.engine.initd = true) (hd : s.engine.diffused = false) :
    exec .diffuse s = .next (s.okWith (diffuseEffect s.engine).1 0 [] []) :=
  exec_ok (diffuseChecks_pass.2 ⟨hi, hd⟩)

/-- The INIT pattern bit by bit (R151). -/
theorem initLfsr_getLsbD : ∀ j < 128, initLfsr.getLsbD j = (decide (1 ≤ j ∧ j ≤ 31) || decide (j = 127)) := by
  decide

/-- 256 rounds after INIT, from whatever engine, end with the registers of R153's example: a round does not read `pv`, and INIT
writes everything it reads. -/
theorem clocked_initEffect (e : Engine) :
    ((initEffect e).1.clocked 256).lfsr = createdEngine.lfsr ∧
    ((initEffect e).1.clocked 256).nfsr = createdEngine.nfsr := by
  have hexample : ((initEffect createdEngine).1.clocked 256).lfsr = createdEngine.lfsr ∧
      ((initEffect createdEngine).1.clocked 256).nfsr = createdEngine.nfsr := by
    decide +kernel
  obtain ⟨hl, hn⟩ := Engine.clocked_congr (e := (initEffect e).1) (f := (initEffect createdEngine).1) rfl rfl rfl 256
  obtain ⟨hlfsr, hnfsr⟩ := hexample
  exact ⟨hl.trans hlfsr, hn.trans hnfsr⟩

/-- INIT then DIFFUSE give the engine of R153's example from every engine, with `pv` as before (R156). -/
theorem diffuseEffect_initEffect (e : Engine) :
    (diffuseEffect (initEffect e).1).1 = { createdEngine with pv := e.pv } := by
  obtain ⟨hl, hn⟩ := clocked_initEffect e
  simp only [diffuseEffect_eq, hl, hn]
  rw [initEffect_eq]
  rfl

/-- The status word of R153's example. -/
theorem statusWord_createdEngine : statusWord createdEngine = 0x0000000B := by decide

/-- DIFFUSE after INIT succeeds and completes `create` (R156). -/
theorem exec_diffuse_after_init (s : State) :
    exec .diffuse (s.okWith (initEffect s.engine).1 0 [] []) =
      .next ((s.okWith (initEffect s.engine).1 0 [] []).okWith { createdEngine with pv := s.engine.pv } 0 [] []) := by
  rw [exec_diffuse rfl rfl, diffuseEffect_initEffect]

/-- Settles O12: INIT writes constants to every field but `pv`, and the flags it writes are those of the status word. -/
theorem initLoadsThePattern : Obligations.InitLoadsThePattern := by
  intro s
  refine ⟨_, exec_init s, by rw [initEffect_eq]; rfl, initLfsr_getLsbD, rfl, ⟨_, exec_init _, rfl⟩, ?_⟩
  cases hpv : s.engine.pv <;> simp only [initEffect_eq, hpv] <;> rfl

/-- Settles O13: the first failing check in either refusal; else the effect, and its example. -/
theorem diffuseRuns256Rounds : Obligations.DiffuseRuns256Rounds := by
  refine ⟨fun s hi => ?notInit, fun s hi hd => ?alreadyDiffused, fun s hi hd => ?effect, fun s hpv => ?vector⟩
  case notInit => exact exec_error (by simp [checksOf, diffuseChecks, firstFailure, hi])
  case alreadyDiffused => exact exec_error (by simp [checksOf, diffuseChecks, firstFailure, hi, hd])
  case effect => rw [exec_diffuse hi hd, diffuseEffect_eq]
  case vector =>
    refine ⟨_, _, exec_init s, exec_diffuse_after_init s, rfl, rfl, ?_⟩
    rw [hpv]
    exact statusWord_createdEngine

/-- Settles O37: DIFFUSE is the one command that writes 0 to the phase flag, and it does so only where it succeeds. -/
theorem onlyDiffuseEndsTheDiffusionPhase : Obligations.OnlyDiffuseEndsTheDiffusionPhase := by
  intro s t h hs ht
  obtain ⟨-, rfl⟩ | ⟨rest, hi, -⟩ | ⟨w, rest, c, -, -, rfl⟩ | ⟨w, rest, i, hi, hd, hx⟩ := step_cases h
  · simp [hs] at ht
  · exact .inl ⟨rest, hi⟩
  · simp [hs] at ht
  · obtain ⟨hphase, -⟩ := flagsHaveTheirWritersOnly i _ t hx
    obtain ⟨-, hset⟩ | ⟨rfl, -⟩ := hphase (by simp [hs, ht])
    · simp [ht] at hset
    · have hdiffused : t.engine.diffused = true := by
        obtain ⟨c, -, rfl⟩ | ⟨-, rfl⟩ := exec_cases hx
        · simp [hs] at ht
        · rfl
      obtain ⟨-, hbit1, hbit2, -⟩ := statusWord_getLsbD t.engine
      exact .inr ⟨⟨w, rest, hi, hd⟩, hdiffused, hbit1.trans hdiffused, hbit2.trans ht⟩

/-! ### Engines equal but for `pv` answer alike -/

/-- Two engines equal in every field but `pv`. -/
def Engine.SameButPv (e f : Engine) : Prop := f = { e with pv := f.pv }

/-- What the identity of two output sequences is about: all of a response but the word, where a status word shows `pv`. -/
def Resp.observed (r : Resp) : RespStatus × Cause × List Byte × List Byte := (r.st, r.cause, r.out0, r.out1)

/-- From `s` to `t` and from `s'` to `t'` the same is observed, and the engines at the end differ at most in `pv`. -/
def State.AnswerAlike (s s' t t' : State) : Prop :=
  t.engine.SameButPv t'.engine ∧
    ∃ new new' : List Resp, t.responses = s.responses ++ new ∧ t'.responses = s'.responses ++ new' ∧
      new.map Resp.observed = new'.map Resp.observed

/-- Nothing is observed where no step is made. -/
theorem State.AnswerAlike.refl {s s' : State} (h : s.engine.SameButPv s'.engine) : s.AnswerAlike s' s s' :=
  ⟨h, [], [], by simp, by simp, rfl⟩

/-- What is observed in one run after another. -/
theorem State.AnswerAlike.trans {s s' t t' u u' : State} (h : s.AnswerAlike s' t t') (h' : t.AnswerAlike t' u u') :
    s.AnswerAlike s' u u' := by
  obtain ⟨-, new, new', hnew, hnew', hobs⟩ := h
  obtain ⟨hsame, later, later', hlater, hlater', hobs'⟩ := h'
  exact ⟨hsame, new ++ later, new' ++ later', by rw [hlater, hnew, List.append_assoc],
    by rw [hlater', hnew', List.append_assoc], by rw [List.map_append, List.map_append, hobs, hobs']⟩

/-- One response each, with the same observed of it. -/
theorem State.AnswerAlike.answer {s s' : State} {e e' : Engine} {r r' : Resp} (h : e.SameButPv e')
    (hobs : r.observed = r'.observed) : s.AnswerAlike s' (s.answer e r) (s'.answer e' r') :=
  ⟨h, [r], [r'], rfl, rfl, congrArg (fun o => [o]) hobs⟩

/-- An error raised in both. -/
theorem State.AnswerAlike.raise {s s' : State} (h : s.engine.SameButPv s'.engine) (c : Cause) :
    s.AnswerAlike s' (s.raise c) (s'.raise c) := by
  have hraised := congrArg (fun e : Engine => ({ e with pv := true } : Engine)) h
  exact .answer hraised rfl

/-- No check reads `pv` (R211). -/
theorem checksOf_setPv (e : Engine) (b : Bool) (i : Instr) : checksOf { e with pv := b } i = checksOf e i := by
  cases i <;> rfl

/-- No output depends on `pv`. -/
theorem Engine.outputBit_setPv (e : Engine) (b : Bool) : ({ e with pv := b } : Engine).outputBit = e.outputBit :=
  funext (outputBit_congr rfl rfl rfl)

/-- Population reads the two shift registers and the phase flag, nothing else (R181). -/
theorem Engine.populate_congr {e f : Engine} (hl : e.lfsr = f.lfsr) (hn : e.nfsr = f.nfsr)
    (hd : e.diffusing = f.diffusing) : e.populate.acc = f.populate.acc ∧ e.populate.sreg = f.populate.sreg := by
  have hout : e.outputBit = f.outputBit := funext (outputBit_congr hl hn hd)
  refine ⟨BitVec.eq_of_getLsbD_eq fun i hi => ?acc, BitVec.eq_of_getLsbD_eq fun i hi => ?sreg⟩
  case acc => rw [(e.populate_bits hi).1, (f.populate_bits hi).1, hout]
  case sreg => rw [(e.populate_bits hi).2, (f.populate_bits hi).2, hout]

/-- No effect reads `pv` but for the word of STATUS, and each leaves it as it is (R31). -/
theorem effectOf_setPv (i : Instr) (e : Engine) (b : Bool) :
    (effectOf i { e with pv := b }).1 = { (effectOf i e).1 with pv := b } ∧
    (Resp.ok (effectOf i { e with pv := b }).2).observed = (Resp.ok (effectOf i e).2).observed := by
  have hclocked := Engine.clocked_congr (e := { e with pv := b }) (f := e) rfl rfl rfl
  cases i with
  | init | isAuth | accBytes | srBytes | status => exact ⟨rfl, rfl⟩
  | diffuse =>
    obtain ⟨hl, hn⟩ := hclocked 256
    simp only [effectOf, diffuseEffect_eq, hl, hn, and_self]
  | ksBytes n =>
    obtain ⟨hl, hn⟩ := hclocked (8 * n)
    simp only [effectOf, ksBytesEffect_eq, hl, hn, Engine.outputBit_setPv, and_self]
  | authStreams n =>
    obtain hpop | hpop := Bool.eq_false_or_eq_true e.pop
    · obtain ⟨hl, hn⟩ := hclocked (16 * n)
      simp only [effectOf, authStreamsEffect_later n (e := e) hpop,
        authStreamsEffect_later n (e := { e with pv := b }) hpop, hl, hn, Engine.outputBit_setPv, and_self]
    · obtain ⟨hl, hn⟩ := hclocked (64 + 16 * n)
      obtain ⟨hacc, hsreg⟩ := Engine.populate_congr (e := { e with pv := b }) (f := e) rfl rfl rfl
      simp only [effectOf, authStreamsEffect_first n (e := e) hpop,
        authStreamsEffect_first n (e := { e with pv := b }) hpop, hl, hn, hacc, hsreg, Engine.outputBit_setPv, and_self]

/-- A command answers alike on engines equal but for `pv`. -/
theorem exec_answerAlike {i : Instr} {s s' t t' : State} (h : s.engine.SameButPv s'.engine)
    (ht : exec i s = .next t) (ht' : exec i s' = .next t') : s.AnswerAlike s' t t' := by
  have hchecks : checksOf s'.engine i = checksOf s.engine i := by rw [h, checksOf_setPv]
  obtain ⟨c, hc, rfl⟩ | ⟨hp, rfl⟩ := exec_cases ht
  · cases (exec_error (hchecks ▸ hc)).symm.trans ht'
    exact .raise h (.precondition c)
  · cases (exec_ok (hchecks ▸ hp)).symm.trans ht'
    obtain ⟨hengine, hobs⟩ := effectOf_setPv i s.engine s'.engine.pv
    rw [← h] at hengine hobs
    refine .answer ?_ hobs.symm
    rw [Engine.SameButPv, effectOf_pv, hengine]

/-- A step on the same word answers alike on engines equal but for `pv`. -/
theorem step_answerAlike {s s' t t' : State} {w : Word} {rest : List HostInput} (h : s.engine.SameButPv s'.engine)
    (hi : s.inputs = .word w :: rest) (hi' : s'.inputs = .word w :: rest) (ht : step s = .next t)
    (ht' : step s' = .next t') : s.AnswerAlike s' t t' := by
  cases hd : decode w with
  | error c =>
    cases (step_illegal hi hd).symm.trans ht
    cases (step_illegal hi' hd).symm.trans ht'
    exact .raise h _
  | ok i =>
    exact exec_answerAlike (s := { s with inputs := rest }) (s' := { s' with inputs := rest }) h
      ((step_command hi hd).symm.trans ht) ((step_command hi' hd).symm.trans ht')

/-- A run on the same words answers alike on engines equal but for `pv`. -/
theorem run_answerAlike {ws : List Word} {s s' t t' : State} (h : s.engine.SameButPv s'.engine)
    (hi : s.inputs = ws.map .word) (hi' : s'.inputs = ws.map .word)
    (ht : Host.Core.run Sys2Proof.core ws.length s = .next t)
    (ht' : Host.Core.run Sys2Proof.core ws.length s' = .next t') : s.AnswerAlike s' t t' := by
  induction ws generalizing s s' with
  | nil =>
    cases ht
    cases ht'
    exact .refl h
  | cons w ws ih =>
    obtain ⟨u, hu⟩ := step_next s
    obtain ⟨u', hu'⟩ := step_next s'
    have hfirst := step_answerAlike h hi hi' hu hu'
    have ⟨hsame, _⟩ := hfirst
    have hrest : u.inputs = ws.map .word := by rw [step_inputs hu, hi, List.map_cons, List.tail_cons]
    have hrest' : u'.inputs = ws.map .word := by rw [step_inputs hu', hi', List.map_cons, List.tail_cons]
    exact hfirst.trans (ih hsame hrest hrest' ((run_succ _ hu).symm.trans ht) ((run_succ _ hu').symm.trans ht'))

/-- INIT makes any two engines equal but for `pv`, and is answered alike (R150). -/
theorem init_answerAlike (s s' : State) :
    s.AnswerAlike s' (s.okWith (initEffect s.engine).1 0 [] []) (s'.okWith (initEffect s'.engine).1 0 [] []) :=
  .answer rfl rfl

/-- Settles O46: INIT overwrites all but `pv`, and from there on DIFFUSE and the later words are answered alike. -/
theorem createReproducesTheStreams : Obligations.CreateReproducesTheStreams := by
  refine ⟨fun s => ⟨_, _, exec_init s, exec_diffuse_after_init s, rfl, List.append_assoc ..⟩, fun ws s s' hi hi' => ?_⟩
  have hinit := (step_command hi (i := .init) rfl).trans (exec_init _)
  have hinit' := (step_command hi' (i := .init) rfl).trans (exec_init _)
  obtain ⟨t, ht⟩ := run_next (ws.length + 2) s
  obtain ⟨t', ht'⟩ := run_next (ws.length + 2) s'
  have hfirst := init_answerAlike { s with inputs := .word 2 :: ws.map .word } { s' with inputs := .word 2 :: ws.map .word }
  have ⟨hsame, _⟩ := hfirst
  have hlater := run_answerAlike (ws := 2 :: ws) hsame rfl rfl
    ((run_succ _ hinit).symm.trans ht) ((run_succ _ hinit').symm.trans ht')
  obtain ⟨-, new, new', hnew, hnew', hobs⟩ := hfirst.trans hlater
  exact ⟨t, t', new, new', ht, hnew, ht', hnew', hobs⟩

end Sys2Proof.Machine
end

section
/-!
PROOFS. The step (43_extraction.md section 1): it runs the command a word decodes to, refuses a word that decodes to none, and
gives each word one response (R170, R171, R216).
-/

namespace Sys2Proof.Machine

/-- Settles O6: the step's own rule for a word that decodes. -/
theorem stepRunsTheDecodedCommand : Obligations.StepRunsTheDecodedCommand :=
  fun _ _ _ _ => step_command

/-- Settles O7: the step's own rule for a word that does not decode. -/
theorem stepAnswersAnIllegalWord : Obligations.StepAnswersAnIllegalWord :=
  fun _ _ _ _ => step_illegal

/-- A command leaves the draw cursor (log 2). -/
theorem exec_draw {i : Instr} {s t : State} (h : exec i s = .next t) : t.draw = s.draw := by
  obtain ⟨c, -, rfl⟩ | ⟨-, rfl⟩ := exec_cases h <;> rfl

/-- A step on a command word leaves the draw cursor: only a hardware reset takes a draw (log 2). -/
theorem step_word_draw {s t : State} {w : Word} {rest : List HostInput} (hi : s.inputs = .word w :: rest)
    (h : step s = .next t) : t.draw = s.draw := by
  cases hd : decode w with
  | error c =>
    cases (step_illegal hi hd).symm.trans h
    rfl
  | ok i => exact exec_draw (s := { s with inputs := rest }) ((step_command hi hd).symm.trans h)

/-- Settles O10: every step answers, and on a word it takes one input and gives one response, whether the word
decodes or not. -/
theorem everyCommandGetsOneResponse : Obligations.EveryCommandGetsOneResponse := by
  intro s
  obtain ⟨t, ht⟩ := step_next s
  refine ⟨t, ht, fun w rest hi => ?_⟩
  obtain ⟨r, hr, -⟩ := step_word_pv hi ht
  exact ⟨by rw [step_inputs ht, hi, List.tail_cons], step_word_draw hi ht, r, hr⟩

end Sys2Proof.Machine
end

section
/-!
PROOFS. KS_BYTES and AUTH_STREAMS (43_extraction.md sections 2 and 3): what each refuses, what it answers and what it writes
(R175, R176, R180, R181, R185).
-/

namespace Sys2Proof.Machine

/-- KS_BYTES answers OK on a diffused engine that is not latched in AUTH (R175). -/
theorem exec_ksBytes (n : Nat) {s : State} (hi : s.engine.initd = true) (hd : s.engine.diffused = true)
    (hm : s.engine.mode ≠ .auth) :
    exec (.ksBytes n) s =
      .next (s.okWith (ksBytesEffect n s.engine).1 0 (ksBytesEffect n s.engine).2.out0 []) :=
  exec_ok (ksBytesChecks_pass.2 ⟨hi, hd, hm⟩)

/-- AUTH_STREAMS answers OK on a diffused engine that has the auth flag and is not latched in PLAIN (R180). -/
theorem exec_authStreams (n : Nat) {s : State} (hi : s.engine.initd = true) (hd : s.engine.diffused = true)
    (ha : s.engine.auth = true) (hm : s.engine.mode ≠ .plain) :
    exec (.authStreams n) s =
      .next (s.okWith (authStreamsEffect n s.engine).1 0 (authStreamsEffect n s.engine).2.out0
        (authStreamsEffect n s.engine).2.out1) :=
  exec_ok (authStreamsChecks_pass.2 ⟨hi, hd, ha, hm⟩)

/-- KS_BYTES on a diffused engine latched in AUTH fails the check of the mode (R175). -/
theorem ksBytesChecks_modeConflict {e : Engine} (hi : e.initd = true) (hd : e.diffused = true) (hm : e.mode = .auth) :
    firstFailure (ksBytesChecks e) = some .modeConflict := by
  simp [ksBytesChecks, firstFailure, hi, hd, hm]

/-- AUTH_STREAMS on a diffused engine with the auth flag that is latched in PLAIN fails the check of the mode (R180). -/
theorem authStreamsChecks_modeConflict {e : Engine} (hi : e.initd = true) (hd : e.diffused = true)
    (ha : e.auth = true) (hm : e.mode = .plain) : firstFailure (authStreamsChecks e) = some .modeConflict := by
  simp [authStreamsChecks, firstFailure, hi, hd, ha, hm]

/-- KS_BYTES after `create` succeeds (R156, R175). -/
theorem exec_ksBytes_created (n : Nat) {s : State} (hs : s.engine = createdEngine) :
    exec (.ksBytes n) s =
      .next (s.okWith (ksBytesEffect n createdEngine).1 0 (ksBytesEffect n createdEngine).2.out0 []) := by
  rw [← hs]
  exact exec_ksBytes n (by rw [hs]; rfl) (by rw [hs]; rfl) (by rw [hs]; decide)

/-- AUTH_STREAMS after `create` succeeds (R156, R180). -/
theorem exec_authStreams_created (n : Nat) {s : State} (hs : s.engine = createdEngine) :
    exec (.authStreams n) s =
      .next (s.okWith (authStreamsEffect n createdEngine).1 0 (authStreamsEffect n createdEngine).2.out0
        (authStreamsEffect n createdEngine).2.out1) := by
  rw [← hs]
  exact exec_authStreams n (by rw [hs]; rfl) (by rw [hs]; rfl) (by rw [hs]; rfl) (by rw [hs]; decide)

/-- What KS_BYTES 1 and KS_BYTES 16 give after `create` (R175). -/
theorem createdEngine_ksBytes :
    (ksBytesEffect 1 createdEngine).2.out0 = [0x56] ∧
    (ksBytesEffect 16 createdEngine).2.out0 =
      [0x56, 0x4B, 0x36, 0x22, 0x19, 0xBD, 0x90, 0xE3, 0x01, 0xF2, 0x59, 0xCF, 0x52, 0xBF, 0x5D, 0xA9] := by
  decide +kernel

/-- What AUTH_STREAMS 4 stores and gives after `create` (95_test_vectors.md V-A1). -/
theorem createdEngine_authStreams :
    packRegister createdEngine.populate.acc = [0x56, 0x4B, 0x36, 0x22] ∧
    packRegister createdEngine.populate.sreg = [0x19, 0xBD, 0x90, 0xE3] ∧
    (authStreamsEffect 4 createdEngine).2.out0 = [0x0D, 0x2B, 0x1F, 0x2E] ∧
    (authStreamsEffect 4 createdEngine).2.out1 = [0x1C, 0xDB, 0xC7, 0xF1] := by
  decide +kernel

/-- After the first AUTH_STREAMS the two authentication registers are those of the population, whatever its count (R181). -/
theorem authStreamsEffect_registers (n : Nat) {e : Engine} (h : e.pop = false) :
    (authStreamsEffect n e).1.acc = e.populate.acc ∧ (authStreamsEffect n e).1.sreg = e.populate.sreg := by
  rw [authStreamsEffect_first n h]
  exact ⟨rfl, rfl⟩

/-- Settles O14: the first failing check in each refusal; else the effect in closed form, and its examples evaluated. -/
theorem ksBytesPacksThePlainStream : Obligations.KsBytesPacksThePlainStream := by
  refine ⟨fun n s hi => exec_error ?notInit, fun n s hi hd => exec_error ?notDiffused,
    fun n s hi hd hm => exec_error (ksBytesChecks_modeConflict hi hd hm), fun n s hi hd hm => ?effect,
    fun s hs => ?vectors⟩
  case notInit => simp [checksOf, ksBytesChecks, firstFailure, hi]
  case notDiffused => simp [checksOf, ksBytesChecks, firstFailure, hi, hd]
  case effect => rw [exec_ksBytes n hi hd hm, ksBytesEffect_eq]
  case vectors =>
    obtain ⟨hone, hsixteen⟩ := createdEngine_ksBytes
    exact ⟨⟨_, exec_ksBytes_created 1 hs, by rw [hone]⟩, ⟨_, exec_ksBytes_created 16 hs, by rw [hsixteen]⟩⟩

/-- Settles O15: the first failing check in each refusal; else the effect in closed form, on an engine populated
before or not. -/
theorem authStreamsPopulatesAndSplits : Obligations.AuthStreamsPopulatesAndSplits := by
  refine ⟨fun n s hi => exec_error ?notInit, fun n s hi hd => exec_error ?notDiffused,
    fun n s hi hd ha => exec_error ?notAuth,
    fun n s hi hd ha hm => exec_error (authStreamsChecks_modeConflict hi hd ha hm),
    fun n s hi hd ha hm hp => ?first, fun n s hi hd ha hm hp => ?later, fun s hs => ?vector⟩
  case notInit => simp [checksOf, authStreamsChecks, firstFailure, hi]
  case notDiffused => simp [checksOf, authStreamsChecks, firstFailure, hi, hd]
  case notAuth => simp [checksOf, authStreamsChecks, firstFailure, hi, hd, ha]
  case first =>
    refine ⟨s.engine.populate.acc, s.engine.populate.sreg, fun i => s.engine.populate_bits, ?_⟩
    rw [exec_authStreams n hi hd ha hm, authStreamsEffect_first n hp]
  case later => rw [exec_authStreams n hi hd ha hm, authStreamsEffect_later n hp]
  case vector =>
    obtain ⟨hacc, hsreg, hkeystream, hmacstream⟩ := createdEngine_authStreams
    obtain ⟨facc, fsreg⟩ := authStreamsEffect_registers 4 (e := createdEngine) rfl
    exact ⟨_, exec_authStreams_created 4 hs, by rw [hkeystream, hmacstream], by rw [facc, hacc],
      by rw [fsreg, hsreg]⟩

end Sys2Proof.Machine
end

section
/-!
PROOFS. The queries (43_extraction.md section 4): what each refuses and what it answers (R190 to R193).
-/

namespace Sys2Proof.Machine

/-- Settles O16: the one check, and the auth flag as a word; INIT sets both flags. -/
theorem isAuthAnswersTheAuthFlag : Obligations.IsAuthAnswersTheAuthFlag := by
  have hanswer (s : State) (hi : s.engine.initd = true) :
      exec .isAuth s = .next (s.okWith s.engine (if s.engine.auth then 1 else 0) [] []) := by
    have hword : (BitVec.ofBool s.engine.auth).setWidth 32 = if s.engine.auth then 1 else 0 := by
      cases s.engine.auth <;> rfl
    rw [← hword]
    exact exec_ok (by simp [checksOf, isAuthChecks, firstFailure, hi])
  refine ⟨fun s hi => exec_error ?_, hanswer, fun s => ⟨_, _, exec_init s, hanswer _ rfl, rfl⟩⟩
  simp [checksOf, isAuthChecks, firstFailure, hi]

/-- Bit `m` of bytes each packed from a start of its own, `m` in generation order (R54). -/
theorem streamBit_map_packBits (b : Nat → Bool) (start : Nat → Nat) (stride : Nat) {n m : Nat} (hm : m < 8 * n) :
    streamBit ((List.range n).map fun k => packBits b (start k) stride) m = b (start (m / 8) + m % 8 * stride) := by
  have hk : m / 8 < n := by omega
  rw [streamBit, List.getD_eq_getElem?_getD, List.getElem?_map, List.getElem?_range hk]
  exact packBits_getLsbD b _ stride (Nat.mod_lt m (by decide))

/-- A register read out holds its bits in generation order (R55). -/
theorem streamBit_packRegister (R : Reg32) {m : Nat} (hm : m < 32) : streamBit (packRegister R) m = R.getLsbD m := by
  have h := streamBit_map_packBits R.getLsbD (8 * ·) 1 (n := 4) hm
  rwa [Nat.mul_one, Nat.div_add_mod] at h

/-- The four refusals ACC_BYTES and SR_BYTES share, in their order (R191, R192). -/
theorem readout_refusals {i : Instr} (h : ∀ e, checksOf e i = accBytesChecks e) :
    (∀ s : State, s.engine.initd = false → exec i s = .next (s.violatedWith .notInit)) ∧
    (∀ s : State, s.engine.initd = true → s.engine.diffused = false →
      exec i s = .next (s.violatedWith .notDiffused)) ∧
    (∀ s : State, s.engine.initd = true → s.engine.diffused = true → s.engine.auth = false →
      exec i s = .next (s.violatedWith .notAuth)) ∧
    (∀ s : State, s.engine.initd = true → s.engine.diffused = true → s.engine.auth = true → s.engine.pop = false →
      exec i s = .next (s.violatedWith .notPopulated)) := by
  refine ⟨fun s hi => exec_error ?_, fun s hi hd => exec_error ?_, fun s hi hd ha => exec_error ?_,
    fun s hi hd ha hp => exec_error ?_⟩
  · simp [h, accBytesChecks, firstFailure, hi]
  · simp [h, accBytesChecks, firstFailure, hi, hd]
  · simp [h, accBytesChecks, firstFailure, hi, hd, ha]
  · simp [h, accBytesChecks, firstFailure, hi, hd, ha, hp]

/-- ACC_BYTES and SR_BYTES after `create` and one AUTH_STREAMS, whatever its count (R181, R191, R192). -/
theorem exec_readout_created (n : Nat) {s : State} (hs : s.engine = createdEngine) :
    ∃ t, exec (.authStreams n) s = .next t ∧
      exec .accBytes t = .next (t.okWith t.engine 0 [0x56, 0x4B, 0x36, 0x22] []) ∧
      exec .srBytes t = .next (t.okWith t.engine 0 [0x19, 0xBD, 0x90, 0xE3] []) := by
  obtain ⟨hacc, hsreg, -, -⟩ := createdEngine_authStreams
  obtain ⟨facc, fsreg⟩ := authStreamsEffect_registers n (e := createdEngine) rfl
  obtain ⟨-, fauth, -, finitd, fdiffused, fpop, -⟩ := authStreamsEffect_flags n createdEngine
  refine ⟨_, exec_authStreams_created n hs, ?_⟩
  rw [← hacc, ← hsreg, ← facc, ← fsreg]
  exact exec_readout finitd fdiffused fauth fpop

/-- Settles O17: the checks in order, and ACC read out; the example by its evaluation. -/
theorem accBytesAnswersTheAccumulator : Obligations.AccBytesAnswersTheAccumulator := by
  obtain ⟨hinit, hdiffused, hauth, hpop⟩ := readout_refusals (i := .accBytes) fun _ => rfl
  refine ⟨hinit, hdiffused, hauth, hpop, fun s hi hd ha hp => ?answer, fun s hs => ?vector⟩
  case answer =>
    obtain ⟨hread, -⟩ := exec_readout hi hd ha hp
    exact ⟨_, hread, rfl, fun m => streamBit_packRegister s.engine.acc⟩
  case vector =>
    obtain ⟨t, ht, hread, -⟩ := exec_readout_created 0 hs
    exact ⟨t, _, ht, hread, rfl⟩

/-- Settles O18: as for ACC_BYTES, with SREG. -/
theorem srBytesAnswersTheShiftRegister : Obligations.SrBytesAnswersTheShiftRegister := by
  obtain ⟨hinit, hdiffused, hauth, hpop⟩ := readout_refusals (i := .srBytes) fun _ => rfl
  refine ⟨hinit, hdiffused, hauth, hpop, fun s hi hd ha hp => ?answer, fun s hs => ?vector⟩
  case answer =>
    obtain ⟨-, hread⟩ := exec_readout hi hd ha hp
    exact ⟨_, hread, rfl, fun m => streamBit_packRegister s.engine.sreg⟩
  case vector =>
    obtain ⟨t, ht, -, hread⟩ := exec_readout_created 0 hs
    exact ⟨t, _, ht, hread, rfl⟩

/-- STATUS answers the status word in every state (R193). -/
theorem exec_status (s : State) : exec .status s = .next (s.okWith s.engine (statusWord s.engine) [] []) := exec_ok rfl

/-- Settles O19: the status word in every state; in the examples it depends on the flags only. -/
theorem statusAnswersTheStatusWord : Obligations.StatusAnswersTheStatusWord := by
  refine ⟨exec_status, ?reset, fun s hs => ⟨?created, ?plain⟩⟩
  case reset =>
    obtain ⟨-, hreset⟩ := statusWordLayout
    rw [exec_status, hreset]
  case created => rw [exec_status, hs, statusWord_createdEngine]
  case plain =>
    have hword : statusWord (ksBytesEffect 1 createdEngine).1 = 0x0000001B := by
      rw [ksBytesEffect_eq]
      rfl
    exact ⟨_, _, exec_ksBytes_created 1 hs, exec_status _, by rw [hword]⟩

end Sys2Proof.Machine
end

section
/-!
PROOFS. The output mode (43_extraction.md R172) and the rounds of each command (70_reset_and_hazards.md R245): a command that
raises an error moves neither.
-/

namespace Sys2Proof.Machine

/-- What a command can do, and the one response it then gives (R170, R171). -/
theorem exec_cases_response {i : Instr} {s t : State} {r : Resp} (h : exec i s = .next t)
    (hr : t.responses = s.responses ++ [r]) :
    (∃ c, firstFailure (checksOf s.engine i) = some c ∧ t.engine = { s.engine with pv := true } ∧
      r = Resp.error (.precondition c)) ∨
    (firstFailure (checksOf s.engine i) = none ∧ t.engine = (effectOf i s.engine).1 ∧
      r = Resp.ok (effectOf i s.engine).2) := by
  obtain ⟨c, hc, rfl⟩ | ⟨hp, rfl⟩ := exec_cases h
  · exact .inl ⟨c, hc, rfl, by simpa using hr.symm⟩
  · exact .inr ⟨hp, rfl, by simpa using hr.symm⟩

/-- An error response is not OK (R72). -/
theorem Resp.error_precondition_ne_ok (c : PreconditionCause) : (Resp.error (.precondition c)).st ≠ .ok := nofun

/-- The mode each command leaves when no check fails (R172). -/
def modeOnSuccess (e : Engine) : Instr → Mode
  | .init => .none
  | .ksBytes _ => .plain
  | .authStreams _ => .auth
  | .diffuse => e.mode
  | .isAuth => e.mode
  | .accBytes => e.mode
  | .srBytes => e.mode
  | .status => e.mode

/-- The effect of a command leaves that mode. -/
theorem effectOf_mode (i : Instr) (e : Engine) : (effectOf i e).1.mode = modeOnSuccess e i := by
  cases i with
  | init | isAuth | accBytes | srBytes | status => rfl
  | diffuse => rw [effectOf, diffuseEffect_eq, modeOnSuccess]
  | ksBytes n => rw [effectOf, ksBytesEffect_eq, modeOnSuccess]
  | authStreams n =>
    obtain ⟨-, -, hm, -⟩ := authStreamsEffect_flags n e
    exact hm

/-- Settles O38: an error leaves the mode, and only a failing check gives one; a success had its checks passed and leaves the
mode of `modeOnSuccess`. -/
theorem modeLatchMovesAsTheTable : Obligations.ModeLatchMovesAsTheTable := by
  intro i s t r h hr
  obtain ⟨c, hc, ht, rfl⟩ | ⟨hp, ht, rfl⟩ := exec_cases_response h hr
  · have herr := Resp.error_precondition_ne_ok c
    have hmode : t.engine.mode = s.engine.mode := by rw [ht]
    refine ⟨?init, fun _ => hmode, fun _ _ hok => absurd hok herr, fun _ _ hok => absurd hok herr, ?authInPlain,
      ?plainInAuth, ?ksBytes, ?authStreams, fun _ => hmode⟩
    case init =>
      rintro rfl
      cases hc
    case authInPlain =>
      rintro n rfl hm
      refine ⟨rfl, hmode.trans hm, fun hi hd ha => ?_⟩
      cases hc.symm.trans (authStreamsChecks_modeConflict hi hd ha hm)
      rfl
    case plainInAuth =>
      rintro n rfl hm
      refine ⟨rfl, hmode.trans hm, fun hi hd => ?_⟩
      cases hc.symm.trans (ksBytesChecks_modeConflict hi hd hm)
      rfl
    case ksBytes =>
      rintro n rfl hi hd hm
      cases hc.symm.trans (ksBytesChecks_pass.2 ⟨hi, hd, hm⟩)
    case authStreams =>
      rintro n rfl hi hd ha hm
      cases hc.symm.trans (authStreamsChecks_pass.2 ⟨hi, hd, ha, hm⟩)
  · have hmode := effectOf_mode i s.engine
    rw [← ht] at hmode
    refine ⟨?init, fun herr => absurd rfl herr, ?ksBytes, ?authStreams, ?authInPlain, ?plainInAuth,
      fun _ _ _ _ _ => rfl, fun _ _ _ _ _ _ => rfl, ?others⟩
    case init =>
      rintro rfl
      exact hmode
    case ksBytes =>
      rintro n rfl -
      obtain ⟨-, hd, hm⟩ := ksBytesChecks_pass.1 hp
      exact ⟨hd, hm, hmode⟩
    case authStreams =>
      rintro n rfl -
      obtain ⟨-, hd, ha, hm⟩ := authStreamsChecks_pass.1 hp
      exact ⟨hd, ha, hm, hmode⟩
    case authInPlain =>
      rintro n rfl hplain
      obtain ⟨-, -, -, hm⟩ := authStreamsChecks_pass.1 hp
      exact absurd hplain hm
    case plainInAuth =>
      rintro n rfl hauth
      obtain ⟨-, -, hm⟩ := ksBytesChecks_pass.1 hp
      exact absurd hauth hm
    case others => rintro (rfl | rfl | rfl | rfl | rfl) <;> exact hmode

/-- A command that raises an error consumes no round (R245). -/
theorem roundsUsed_error {e : Engine} {i : Instr} {c : PreconditionCause} (h : firstFailure (checksOf e i) = some c) :
    roundsUsed e i = 0 := by
  rw [roundsUsed, h]

/-- A command that passes its checks consumes the rounds of its effect (R245). -/
theorem roundsUsed_ok {e : Engine} {i : Instr} (h : firstFailure (checksOf e i) = none) :
    roundsUsed e i = roundsOnSuccess e i := by
  rw [roundsUsed, h]

/-- The effect of every command but INIT clocks the two shift registers as often as R245 says. -/
theorem effectOf_clocked {i : Instr} (hi : i ≠ .init) (e : Engine) :
    (effectOf i e).1.lfsr = (e.clocked (roundsOnSuccess e i)).lfsr ∧
    (effectOf i e).1.nfsr = (e.clocked (roundsOnSuccess e i)).nfsr := by
  cases i with
  | init => exact absurd rfl hi
  | isAuth | accBytes | srBytes | status => exact ⟨rfl, rfl⟩
  | diffuse => simp only [effectOf, diffuseEffect_eq, roundsOnSuccess, and_self]
  | ksBytes n => simp only [effectOf, ksBytesEffect_eq, roundsOnSuccess, and_self]
  | authStreams n =>
    cases hpop : e.pop with
    | true => simp [effectOf, authStreamsEffect_later n hpop, roundsOnSuccess, hpop]
    | false => simp [effectOf, authStreamsEffect_first n hpop, roundsOnSuccess, hpop]

/-- Settles O42: an error consumes no round; a success consumes those of its effect, command by command. -/
theorem roundsPerCommandAreExact : Obligations.RoundsPerCommandAreExact := by
  intro i s t r hi h hr
  obtain ⟨c, hc, ht, rfl⟩ | ⟨hp, ht, rfl⟩ := exec_cases_response h hr
  · have herr := Resp.error_precondition_ne_ok c
    exact ⟨0, by rw [ht, Engine.clocked_zero], by rw [ht, Engine.clocked_zero], (roundsUsed_error hc).symm, fun _ => rfl,
      fun hok => absurd hok herr, fun hok => absurd hok herr, fun hok => absurd hok herr, fun hok => absurd hok herr,
      fun _ => rfl⟩
  · obtain ⟨hl, hn⟩ := effectOf_clocked hi s.engine
    refine ⟨roundsOnSuccess s.engine i, by rw [ht, hl], by rw [ht, hn], (roundsUsed_ok hp).symm,
      fun herr => absurd rfl herr, ?diffuse, ?ksBytes, ?first, ?later, ?queries⟩
    case diffuse =>
      rintro - rfl
      rfl
    case ksBytes =>
      rintro - n rfl
      rfl
    case first =>
      rintro - n rfl hpop
      simp [roundsOnSuccess, hpop]
    case later =>
      rintro - n rfl hpop
      simp [roundsOnSuccess, hpop]
    case queries => rintro (rfl | rfl | rfl | rfl) <;> rfl

end Sys2Proof.Machine
end

section
/-!
PROOFS. The streams across calls (43_extraction.md R194, R195): successive extractions concatenate to one, and authenticated
mode splits the plain stream.
-/

namespace Sys2Proof.Machine

/-- A run of bytes cut in two (R194). -/
theorem Engine.plainBytes_add (e : Engine) (n m : Nat) :
    e.plainBytes (n + m) =
      ((e.plainBytes n).1 ++ ((e.plainBytes n).2.plainBytes m).1, ((e.plainBytes n).2.plainBytes m).2) := by
  induction n generalizing e with
  | zero => rw [Nat.zero_add]; rfl
  | succ n ih => rw [Nat.add_right_comm, plainBytes_succ, ih, plainBytes_succ, List.cons_append]

/-- A run of groups cut in two (R194). -/
theorem Engine.authBytes_add (e : Engine) (n m : Nat) :
    e.authBytes (n + m) =
      { keystream := (e.authBytes n).keystream ++ ((e.authBytes n).engine.authBytes m).keystream
        macstream := (e.authBytes n).macstream ++ ((e.authBytes n).engine.authBytes m).macstream
        engine := ((e.authBytes n).engine.authBytes m).engine } := by
  induction n generalizing e with
  | zero => rw [Nat.zero_add]; rfl
  | succ n ih => rw [Nat.add_right_comm, authBytes_succ, ih, authBytes_succ, List.cons_append, List.cons_append]

/-- KS_BYTES leaves the flags its checks read, and latches PLAIN (R175). -/
theorem ksBytesEffect_flags (n : Nat) (e : Engine) :
    (ksBytesEffect n e).1.initd = e.initd ∧ (ksBytesEffect n e).1.diffused = e.diffused ∧
    (ksBytesEffect n e).1.mode = .plain := by
  simp [ksBytesEffect_eq]

/-- KS_BYTES n then KS_BYTES m is KS_BYTES n + m: the latch is set already (R194). -/
theorem ksBytesEffect_add (n m : Nat) (e : Engine) :
    (ksBytesEffect (n + m) e).1 = (ksBytesEffect m (ksBytesEffect n e).1).1 ∧
    (ksBytesEffect (n + m) e).2.out0 =
      (ksBytesEffect n e).2.out0 ++ (ksBytesEffect m (ksBytesEffect n e).1).2.out0 := by
  have hlatched : { (ksBytesEffect n e).1 with mode := .plain } = (ksBytesEffect n e).1 := by
    rw [ksBytesEffect_eq]
  have hsecond : ksBytesEffect m (ksBytesEffect n e).1 =
      (((ksBytesEffect n e).1.plainBytes m).2,
        { word := 0, out0 := ((ksBytesEffect n e).1.plainBytes m).1, out1 := [] }) := by
    rw [ksBytesEffect, hlatched]
  rw [hsecond, ksBytesEffect, Engine.plainBytes_add]
  exact ⟨rfl, rfl⟩

/-- AUTH_STREAMS leaves the engine as entering authenticated mode again would (R180). -/
theorem enterAuth_authStreamsEffect (n : Nat) (e : Engine) :
    enterAuth (authStreamsEffect n e).1 = (authStreamsEffect n e).1 := by
  obtain ⟨-, -, hmode, -, -, hpop, -⟩ := authStreamsEffect_flags n e
  rw [enterAuth_later hpop, ← hmode]

/-- AUTH_STREAMS n then AUTH_STREAMS m is AUTH_STREAMS n + m, in both streams (R194). -/
theorem authStreamsEffect_add (n m : Nat) (e : Engine) :
    (authStreamsEffect (n + m) e).1 = (authStreamsEffect m (authStreamsEffect n e).1).1 ∧
    (authStreamsEffect (n + m) e).2.out0 =
      (authStreamsEffect n e).2.out0 ++ (authStreamsEffect m (authStreamsEffect n e).1).2.out0 ∧
    (authStreamsEffect (n + m) e).2.out1 =
      (authStreamsEffect n e).2.out1 ++ (authStreamsEffect m (authStreamsEffect n e).1).2.out1 := by
  have hsecond : authStreamsEffect m (authStreamsEffect n e).1 =
      (((authStreamsEffect n e).1.authBytes m).engine,
        { word := 0, out0 := ((authStreamsEffect n e).1.authBytes m).keystream,
          out1 := ((authStreamsEffect n e).1.authBytes m).macstream }) := by
    rw [authStreamsEffect, enterAuth_authStreamsEffect]
  rw [hsecond, authStreamsEffect, Engine.authBytes_add]
  exact ⟨rfl, rfl, rfl⟩

/-- Settles O43: the second call's checks pass after the first, and the effects compose. -/
theorem splitExtractionsConcatenate : Obligations.SplitExtractionsConcatenate := by
  refine ⟨fun n m s hi hd hm => ?plain, fun n m s hi hd ha hm _ => ?auth⟩
  case plain =>
    obtain ⟨hengine, hbytes⟩ := ksBytesEffect_add n m s.engine
    obtain ⟨finitd, fdiffused, fmode⟩ := ksBytesEffect_flags n s.engine
    refine ⟨_, _, _, _, _, exec_ksBytes n hi hd hm, rfl,
      exec_ksBytes m (finitd.trans hi) (fdiffused.trans hd) (by simp [fmode]), rfl, exec_ksBytes (n + m) hi hd hm, ?_⟩
    rw [hengine, hbytes]
  case auth =>
    obtain ⟨hengine, hkeystream, hmacstream⟩ := authStreamsEffect_add n m s.engine
    obtain ⟨-, fauth, fmode, finitd, fdiffused, -, -⟩ := authStreamsEffect_flags n s.engine
    refine ⟨_, _, _, _, _, _, _, exec_authStreams n hi hd ha hm, rfl,
      exec_authStreams m (finitd.trans hi) (fdiffused.trans hd) (fauth.trans ha) (by simp [fmode]), rfl,
      exec_authStreams (n + m) hi hd ha hm, ?_⟩
    rw [hengine, hkeystream, hmacstream]

/-- Bit `m` of the plain bytes is output `m` (R176). -/
theorem streamBit_ksBytesEffect (e : Engine) {n m : Nat} (hm : m < 8 * n) :
    streamBit (ksBytesEffect n e).2.out0 m = e.outputBit m := by
  rw [ksBytesEffect_eq]
  refine (streamBit_map_packBits e.outputBit (8 * ·) 1 hm).trans (congrArg e.outputBit ?_)
  rw [Nat.mul_one, Nat.div_add_mod]

/-- Bit `m` of the two streams of the first AUTH_STREAMS: after the 64 outputs that populate, the even outputs and the odd
ones (R181, R185). -/
theorem streamBit_authStreamsEffect {e : Engine} (h : e.pop = false) {n m : Nat} (hm : m < 8 * n) :
    streamBit (authStreamsEffect n e).2.out0 m = e.outputBit (64 + 2 * m) ∧
    streamBit (authStreamsEffect n e).2.out1 m = e.outputBit (64 + 2 * m + 1) := by
  rw [authStreamsEffect_first n h]
  refine ⟨(streamBit_map_packBits e.outputBit (fun k => 64 + 16 * k) 2 hm).trans (congrArg e.outputBit ?_),
    (streamBit_map_packBits e.outputBit (fun k => 64 + 16 * k + 1) 2 hm).trans (congrArg e.outputBit ?_)⟩
  · omega
  · omega

/-- KS_BYTES n gives n bytes (R175). -/
theorem ksBytesEffect_length (n : Nat) (e : Engine) : (ksBytesEffect n e).2.out0.length = n := by
  simp [ksBytesEffect_eq]

/-- The first AUTH_STREAMS n gives n bytes in each stream (R180). -/
theorem authStreamsEffect_length (n : Nat) {e : Engine} (h : e.pop = false) :
    (authStreamsEffect n e).2.out0.length = n ∧ (authStreamsEffect n e).2.out1.length = n := by
  simp [authStreamsEffect_first n h]

/-- The first AUTH_STREAMS n consumes the rounds of KS_BYTES 8 + 2n (R195). -/
theorem authStreamsEffect_clocked (n : Nat) {e : Engine} (h : e.pop = false) :
    (authStreamsEffect n e).1.lfsr = (ksBytesEffect (8 + 2 * n) e).1.lfsr ∧
    (authStreamsEffect n e).1.nfsr = (ksBytesEffect (8 + 2 * n) e).1.nfsr := by
  rw [authStreamsEffect_first n h, ksBytesEffect_eq, show 8 * (8 + 2 * n) = 64 + 16 * n by omega]
  exact ⟨rfl, rfl⟩

/-- Settles O45: every bit on either side is an output of the same engine, by its number. -/
theorem authStreamsSplitThePlainStream : Obligations.AuthStreamsSplitThePlainStream := by
  intro n s hi hd ha hm hpop
  obtain ⟨hkeystream, hmacstream⟩ := authStreamsEffect_length n hpop
  obtain ⟨hlfsr, hnfsr⟩ := authStreamsEffect_clocked n hpop
  obtain ⟨hacc, hsreg⟩ := authStreamsEffect_registers n hpop
  refine ⟨_, _, _, _, _, exec_ksBytes (8 + 2 * n) hi hd (by simp [hm]), rfl, ksBytesEffect_length _ _,
    exec_authStreams n hi hd ha (by simp [hm]), rfl, hkeystream, hmacstream, hlfsr, hnfsr,
    fun i hi32 => ?population, fun m hm8 => ?streams⟩
  case population =>
    rw [hacc, hsreg, streamBit_ksBytesEffect _ (by omega), streamBit_ksBytesEffect _ (by omega)]
    exact s.engine.populate_bits hi32
  case streams =>
    rw [streamBit_ksBytesEffect _ (by omega), streamBit_ksBytesEffect _ (by omega)]
    exact streamBit_authStreamsEffect hpop hm8

end Sys2Proof.Machine
end

section
/-!
PROOFS. Errors (60_exceptions.md): the one cause a command word is answered with (R211, R212, R215), what an error writes (R213),
and that an idle engine holds its state (R224).
-/

namespace Sys2Proof

/-- A command whose opcode is 4 or 5 uses COUNT (R74). -/
theorem Instr.usesCount_eq_true {i : Instr} (h : i.opcode.toNat = 4 ∨ i.opcode.toNat = 5) : i.usesCount = true := by
  cases i with
  | ksBytes n | authStreams n => rfl
  | init | diffuse | isAuth | accBytes | srBytes | status => simp [Instr.opcode] at h

/-- A word that gives the decoder no reason to refuse it is a command of its opcode (R78). -/
theorem decode_isOk {w : Word} (h1 : 1 ≤ w.toNat % 16) (h8 : w.toNat % 16 ≤ 8) (hrsv : w.toNat / 16 % 16 = 0)
    (hcount : (w.toNat % 16 = 4 ∨ w.toNat % 16 = 5) ∨ w.toNat / 256 = 0) :
    ∃ i, decode w = .ok i ∧ i.opcode.toNat = w.toNat % 16 := by
  rw [← opcField_toNat] at h1 h8 hcount ⊢
  rw [← countField_eq] at hcount
  obtain ⟨i, hi⟩ := selectOp_isSome (countField w) h1 h8
  obtain ⟨hopc, -⟩ := selectOp_eq_some hi
  rw [hopc] at hcount ⊢
  exact ⟨i, decode_eq_ok hi ((rsvField_eq_zero w).2 hrsv) (hcount.imp_left Instr.usesCount_eq_true), rfl⟩

end Sys2Proof

namespace Sys2Proof.Machine

/-- Settles O8: the step's own rule for an empty port. -/
theorem idleStepHoldsTheState : Obligations.IdleStepHoldsTheState := fun _ => step_idle

/-- The cause of a list of checks: that of the first one that fails, or none (R215). -/
def firstCause (checks : Checks) : Cause := (firstFailure checks).elim .none .precondition

/-- The cause a command word is answered with: the decoder's where it refuses the word, else the command's (R171). -/
def wordCause (e : Engine) (w : Word) : Cause :=
  match decode w with
  | .error c => .illegal c
  | .ok i => firstCause (checksOf e i)

theorem wordCause_illegal {w : Word} {c : IllegalCause} (h : decode w = .error c) (e : Engine) :
    wordCause e w = .illegal c := by
  rw [wordCause, h]

theorem wordCause_command {w : Word} {i : Instr} (h : decode w = .ok i) (e : Engine) :
    wordCause e w = firstCause (checksOf e i) := by
  rw [wordCause, h]

/-- A step on a command word gives one response, with the word's cause: an error response, and then the step writes `pv` and no
other field of the engine, or an OK response (R171, R213). -/
theorem step_word_response {s : State} {w : Word} {rest : List HostInput} (hi : s.inputs = .word w :: rest) :
    ∃ t r, step s = .next t ∧ t.responses = s.responses ++ [r] ∧ r.cause = wordCause s.engine w ∧
      ((t.engine = { s.engine with pv := true } ∧ r = Resp.error r.cause) ∨ ∃ reply, r = Resp.ok reply) := by
  cases hd : decode w with
  | error c =>
    exact ⟨_, _, step_illegal hi hd, State.raise_responses .., (wordCause_illegal hd _).symm, .inl ⟨rfl, rfl⟩⟩
  | ok i =>
    rw [step_command hi hd, wordCause_command hd, exec_eq_runCommand, firstCause]
    cases hc : firstFailure (checksOf s.engine i) with
    | some c => exact ⟨_, _, State.runCommand_error hc _, State.raise_responses .., rfl, .inl ⟨rfl, rfl⟩⟩
    | none => exact ⟨_, _, State.runCommand_ok hc _, State.answer_responses .., rfl, .inr ⟨_, rfl⟩⟩

/-- Settles O34: a response that is not OK is an error response, with `pv` alone written. -/
theorem errorsWriteOnlyPv : Obligations.ErrorsWriteOnlyPv := by
  intro s t w rest r hi ht hr hst
  obtain ⟨t', r', ht', hr', -, hcases⟩ := step_word_response hi
  cases ht.symm.trans ht'
  obtain rfl : r = r' := by simpa using hr.symm.trans hr'
  obtain ⟨hengine, herr⟩ | ⟨reply, rfl⟩ := hcases
  · rw [herr]
    exact ⟨hengine, rfl, rfl, rfl⟩
  · exact absurd rfl hst

/-- The result goes with its cause by the codes: the codes of R211 are below 8 and those of R212 are not (R72). -/
theorem Cause.st_code (c : Cause) :
    c.st.code.toNat = if c.code.toNat = 0 then 0 else if c.code.toNat < 8 then 1 else 2 := by
  rcases c with _ | c | c
  · rfl
  · cases c <;> rfl
  · cases c <;> rfl

/-- The code of the first precondition that opcode `opc` has and the flags break, in the order of R215, or 0 (R211). -/
def preconditionCode (e : Engine) (opc : Nat) : Nat :=
  if e.initd = false ∧ opc ≠ 1 ∧ opc ≠ 8 then 0x1
  else if e.diffused = false ∧ 4 ≤ opc ∧ opc ≤ 7 then 0x2
  else if e.diffused = true ∧ opc = 2 then 0x3
  else if e.auth = false ∧ 5 ≤ opc ∧ opc ≤ 7 then 0x4
  else if (opc = 4 ∧ e.mode = .auth) ∨ (opc = 5 ∧ e.mode = .plain) then 0x5
  else if e.pop = false ∧ (opc = 6 ∨ opc = 7) then 0x6
  else 0

@[simp] theorem firstCause_nil_code : (firstCause []).code.toNat = 0 := rfl

/-- A failing check gives its code, a passing one leaves it to the later checks (R215). -/
@[simp] theorem firstCause_cons_code (fails : Bool) (c : PreconditionCause) (rest : Checks) :
    (firstCause ((fails, c) :: rest)).code.toNat = if fails then c.code.toNat else (firstCause rest).code.toNat := by
  cases fails <;> rfl

/-- What each command checks, in its own order, is what R215's one order leaves of its opcode's preconditions. -/
theorem firstCause_checksOf_code (e : Engine) (i : Instr) :
    (firstCause (checksOf e i)).code.toNat = preconditionCode e i.opcode.toNat := by
  unfold preconditionCode
  cases i with
  | init => simp [checksOf, initChecks, Instr.opcode]
  | diffuse => simp [checksOf, diffuseChecks, Instr.opcode, PreconditionCause.code]
  | isAuth => simp [checksOf, isAuthChecks, Instr.opcode, PreconditionCause.code]
  | ksBytes n => simp [checksOf, ksBytesChecks, Instr.opcode, PreconditionCause.code]
  | authStreams n => simp [checksOf, authStreamsChecks, Instr.opcode, PreconditionCause.code]
  | accBytes => simp [checksOf, accBytesChecks, Instr.opcode, PreconditionCause.code]
  | srBytes => simp [checksOf, srBytesChecks, Instr.opcode, PreconditionCause.code]
  | status => simp [checksOf, statusChecks, Instr.opcode]

/-- The code of the word's cause: the decoder's three refusals in the order of R78, then the preconditions (R215). -/
theorem wordCause_code (e : Engine) (w : Word) :
    (wordCause e w).code.toNat =
      if w.toNat % 16 = 0 ∨ 9 ≤ w.toNat % 16 then 0x8
      else if w.toNat / 16 % 16 ≠ 0 then 0x9
      else if w.toNat % 16 ≠ 4 ∧ w.toNat % 16 ≠ 5 ∧ w.toNat / 256 ≠ 0 then 0xA
      else preconditionCode e (w.toNat % 16) := by
  obtain ⟨hreserved, hbits, hnoCount, -⟩ := decodeFollowsTheOpcodeMap w
  split_ifs with hopc hrsv hcount
  · rw [wordCause_illegal (hreserved hopc)]
    rfl
  · rw [wordCause_illegal (hbits (by omega) (by omega) hrsv)]
    rfl
  · obtain ⟨h4, h5, hne⟩ := hcount
    rw [wordCause_illegal (hnoCount (by omega) (by omega) (by omega) h4 h5 hne)]
    rfl
  · obtain ⟨i, hi, hopcode⟩ := decode_isOk (w := w) (by omega) (by omega) (by omega) (by omega)
    rw [wordCause_command hi, firstCause_checksOf_code, hopcode]

/-- Settles O36: the response has the word's cause, error or not, and the result that goes with it. -/
theorem causesInFixedPriority : Obligations.CausesInFixedPriority := by
  intro s w rest hi
  obtain ⟨t, r, ht, hr, hcause, hcases⟩ := step_word_response hi
  have hst : r.st = r.cause.st := by
    obtain ⟨-, herr⟩ | ⟨reply, rfl⟩ := hcases
    · exact congrArg Resp.st herr
    · rfl
  refine ⟨t, r, ht, hr, ?_, by rw [hst, Cause.st_code]⟩
  rw [hcause]
  exact wordCause_code s.engine w

end Sys2Proof.Machine
end

section
/-!
PROOFS. The hardware reset (70_reset_and_hazards.md section 1): it clears the flags and answers nothing (R240), and it is not INIT:
until INIT runs only INIT and STATUS are served (R241).
-/

namespace Sys2Proof.Machine

/-- Settles O9: a step on a reset input is the hardware reset, whose engine has the flags of the table (R37), as has that of the
reset state. -/
theorem hardwareResetClearsTheFlags : Obligations.HardwareResetClearsTheFlags := by
  refine ⟨fun s rest hi => ⟨_, step_reset hi, ?afterInput⟩, ?afterReset⟩
  case afterInput =>
    obtain ⟨hdiffusing, hauth, hmode, hinitd, hdiffused, hpop, hpv⟩ := Engine.afterReset_flags s.draw
    exact ⟨hinitd, hdiffused, hdiffusing, hauth, hpop, hmode, hpv, rfl, rfl⟩
  case afterReset =>
    obtain ⟨hdiffusing, hauth, hmode, hinitd, hdiffused, hpop, hpv⟩ := Engine.afterReset_flags State.reset.draw
    exact ⟨hinitd, hdiffused, hdiffusing, hauth, hpop, hmode, hpv, rfl⟩

/-- Every command but INIT and STATUS checks `initd` before anything else (R215, R241). -/
theorem firstFailure_checksOf_uninitialised {e : Engine} {i : Instr} (he : e.initd = false) (hinit : i ≠ .init)
    (hstatus : i ≠ .status) : firstFailure (checksOf e i) = some .notInit := by
  have hfirst (rest : Checks) : firstFailure ((!e.initd, .notInit) :: rest) = some .notInit := by
    simp [firstFailure, he]
  cases i with
  | init => exact absurd rfl hinit
  | status => exact absurd rfl hstatus
  | diffuse | isAuth | ksBytes n | authStreams n | accBytes | srBytes => exact hfirst _

/-- Settles O41: `initd` is clear after reset; while it is clear the first check fails of every command that has one, and STATUS
writes no field of the engine; INIT writes the registers and `initd` and leaves `pv`. -/
theorem resetIsNotInit : Obligations.ResetIsNotInit := by
  refine ⟨?reset, fun i s he hinit hstatus => ?refused, fun s _ => ⟨_, exec_status s, rfl⟩,
    fun s => ⟨_, exec_init s, ?init⟩⟩
  case reset =>
    obtain ⟨-, hinitd, -⟩ := hardwareResetClearsTheFlags
    exact hinitd
  case refused => exact exec_error (firstFailure_checksOf_uninitialised he hinit hstatus)
  case init => exact ⟨rfl, rfl, rfl, rfl, rfl, rfl⟩

end Sys2Proof.Machine
end
